-- ==== Sys2Proof/Word.lean ====
section
/-! DEFINITION. The bit-vector widths of the core (`00_scope.md` rules R5, R7, R8): a `BV(W)` of the spec is a `BitVec W`. -/

namespace Sys2Proof

/-- `BV(10)`: the master key and the key-schedule states (rule R5, `KEYW`). -/
abbrev Key := BitVec 10

/-- `BV(8)`: a subkey K1 or K2 (rule R5, `SUBKEYW`). -/
abbrev Subkey := BitVec 8

/-- `BV(8)`: a plaintext or ciphertext block and the expansion output (rule R5, `BLOCKW`). -/
abbrev Block := BitVec 8

/-- `BV(4)`: a half-block and a substitution-box input (rule R5, `HALFW`). -/
abbrev Half := BitVec 4

/-- `BV(5)`: a half of a key-schedule state (rule R5, `KHALFW`). -/
abbrev KeyHalf := BitVec 5

/-- `BV(2)`: one substitution-box output (rule R5, `SBOXOUTW`). -/
abbrev BoxOut := BitVec 2

/-- The command word `CMD[11:0]`, wire 0 least significant (rule R7, `CMDW`; `30_encoding.md` rule R60). -/
abbrev Cmd := BitVec 12

/-- The response word `RSP[9:0]` (rule R7, `RSPW`; `30_encoding.md` rule R66). -/
abbrev Rsp := BitVec 10

/-- The status word `STATUS[3:0]` (rule R7; `10_state.md` rule R25). -/
abbrev Status := BitVec 4

/-- A fault code, the contents of `FCODE` (rule R7; `10_state.md` rule R24). -/
abbrev FaultCode := BitVec 2

end Sys2Proof
end

