-- ==== Sys2Proof/Machine/Bits.lean ====
section
/-! DEFINITION. Bits by position (`00_scope.md` rules R8, R9, R11): position 1 is the most significant. -/

namespace Sys2Proof.Machine

/-- `v{p}`: the bit of `v : BV(w)` at 1-based position `p`, which is wire `w − p` (rule R9). -/
def bitAt {w : Nat} (v : BitVec w) (p : Nat) : Bool :=
  v.getLsbD (w - p)

/-- The `BV(w)` whose bit at position `p` is `f p`, for `p` in `1..w` (the spec's `for i in 1..w: out{i} = …`). -/
def build : (w : Nat) → (Nat → Bool) → BitVec w
  | 0, _ => 0#0
  | w + 1, f => (build w f).concat (f (w + 1))

/-- `v{p .. p+n−1}` as a `BV(n)`, position `p` becoming position 1 (rules R9, R11). -/
def slice {w : Nat} (v : BitVec w) (p n : Nat) : BitVec n :=
  v.extractLsb' (w + 1 - p - n) n

/-- The number of 1 bits of `v` (`40_permutation_engine.md` rule R91 (c)). -/
def ones {w : Nat} (v : BitVec w) : Nat :=
  (List.range w).countP (fun i => bitAt v (i + 1))

end Sys2Proof.Machine
end

