-- ==== Sys2Proof/Config.lean ====
section
/-! DEFINITION. What an implementation fixes (`00_scope.md` rule R6): the raw contents of the eight tables, and LATENCY. -/

namespace Sys2Proof

/-- The raw contents of `TABLES` (rule R6): entry `i` (1-based) of a permutation table is the source position of output
position `i`; a box is its rows top to bottom, each its columns left to right. A value of this type may be ill-formed:
the configurations of the core are the values of `Tables` in `Sys2Proof/WellFormed.lean`. -/
structure TableData where
  p10   : List Nat
  p8    : List Nat
  ip    : List Nat
  ipinv : List Nat
  ep    : List Nat
  p4    : List Nat
  s0    : List (List Nat)
  s1    : List (List Nat)
  deriving DecidableEq, Repr

/-- LATENCY (rule R6, `70_reset_and_hazards.md` rule R206), the clock cycles from acceptance of a command to its
response: OPEN, "it may differ per command and per implementation". It has no body, and no definition reads it, because
"No rule of the model depends on timing" (log entry 9). -/
opaque Config.latency : Cmd → Nat

end Sys2Proof
end

