-- ==== Sys2Proof/Syntax.lean ====
section
/-! DEFINITION. The commands of the core: one constructor per row of `spec/opcode_table.json`. -/

namespace Sys2Proof

/-- A legal command (`30_encoding.md` rules R61, R65). The operand widths are exact (rules R62, R63, R44), so every value
of this type is a well-formed command: there is no 10-bit block and no 8-bit key. -/
inductive Instr where
  /-- `LOADKEY k`: the source's construction from a 10-bit key (`45_commands.md` rule R161). -/
  | loadkey (k : Key)
  /-- `ENC b`: the source's encrypt of one block (`45_commands.md` rule R162). -/
  | enc (b : Block)
  /-- `DEC b`: the source's decrypt of one block (`45_commands.md` rule R163). -/
  | dec (b : Block)
  deriving DecidableEq, Repr

end Sys2Proof
end

