-- ==== Sys2Proof/WellFormed.lean ====
section
/-! DEFINITION. The well-formedness checks of the spec: of a `TABLES` value (`40_permutation_engine.md` rules R81, R89,
`41_sbox.md` rule R100) and of an operand's text (`30_encoding.md` rule R67). A command needs none: see `Instr`. -/

namespace Sys2Proof

/-- A permutation table has `wout` entries, each a source position in `1..win` (rule R81). -/
def permTableOk (win wout : Nat) (t : List Nat) : Bool :=
  t.length == wout && t.all (fun p => decide (1 ≤ p ∧ p ≤ win))

/-- A table that lists every position of `1..w` (exactly once, when its length is `w`): rule R81 for P10, IP, IPINV, P4. -/
def listsAllPositions (w : Nat) (t : List Nat) : Bool :=
  (List.range w).all (fun i => t.contains (i + 1))

/-- `inv[t[i]] = i` for every `i` in `1..w` (rule R89). -/
def positionallyInverts (w : Nat) (inv t : List Nat) : Bool :=
  (List.range w).all (fun i => inv.getD (t.getD i 0 - 1) 0 == i + 1)

/-- A box has 4 rows of 4 columns and every entry in `0..3` (rule R100). -/
def boxOk (s : List (List Nat)) : Bool :=
  s.length == 4 && s.all (fun row => row.length == 4 && row.all (fun v => decide (v ≤ 3)))

/-- All that rules R81, R89 and R100 ask of a `TABLES` value. -/
def TableData.wellFormed (d : TableData) : Bool :=
  permTableOk 10 10 d.p10 && listsAllPositions 10 d.p10 &&
  permTableOk 10 8 d.p8 &&
  permTableOk 8 8 d.ip && listsAllPositions 8 d.ip &&
  permTableOk 8 8 d.ipinv && listsAllPositions 8 d.ipinv &&
  positionallyInverts 8 d.ipinv d.ip && positionallyInverts 8 d.ip d.ipinv &&
  permTableOk 4 8 d.ep &&
  permTableOk 4 4 d.p4 && listsAllPositions 4 d.p4 &&
  boxOk d.s0 && boxOk d.s1

/-- A configuration `TABLES` of the core. An ill-formed table "is not a configuration of this core; the model's type of
configurations excludes it, and no run-time fault exists for it" (rule R81). -/
structure Tables where
  data : TableData
  ok   : data.wellFormed = true
  deriving DecidableEq, Repr

/-- The text of an operand of width `w` is exactly `w` characters, each `0` or `1` (rule R67, `00_scope.md` rule R10). -/
def operandTextOk (w : Nat) (cs : List Char) : Bool :=
  cs.length == w && cs.all (fun c => c == '0' || c == '1')

end Sys2Proof
end

