-- ==== Sys2Proof/Machine/Permutation.lean ====
section
/-! DEFINITION. The bit-permutation engine (`40_permutation_engine.md`): PERM and its six instances. -/

namespace Sys2Proof.Machine

/-- `PERM(T, W_in, W_out, v)`: output position `i` takes input position `T[i]` (rule R80, a gather). -/
def perm (t : List Nat) (win wout : Nat) (v : BitVec win) : BitVec wout :=
  build wout (fun i => bitAt v (t.getD (i - 1) 0))

/-- `P10`, the 10→10 key permutation (rule R83). -/
def p10 (T : Tables) (k : Key) : Key := perm T.data.p10 10 10 k

/-- `P8`, the 10→8 subkey selection (rule R84). -/
def p8 (T : Tables) (s : Key) : Subkey := perm T.data.p8 10 8 s

/-- `IP`, the 8→8 initial block permutation (rule R85). DESIGN CHOICE, safe: it has the one type `Tables → Block → Block`
of `ipinv` (log entry 18). -/
def ip (T : Tables) (b : Block) : Block := perm T.data.ip 8 8 b

/-- `IPINV`, the 8→8 final block permutation (rule R86). DESIGN CHOICE, safe: rule R82 speaks of six functions with six
different types and counts five width pairings; `ip` and `ipinv` are two functions of one type (log entry 18). -/
def ipinv (T : Tables) (b : Block) : Block := perm T.data.ipinv 8 8 b

/-- `EP`, the 4→8 expansion (rule R87). -/
def ep (T : Tables) (r : Half) : Block := perm T.data.ep 4 8 r

/-- `P4`, the 4→4 round-output permutation (rule R88). -/
def p4 (T : Tables) (x : Half) : Half := perm T.data.p4 4 4 x

end Sys2Proof.Machine
end

