-- ==== Sys2Proof/Machine/KeySchedule.lean ====
section
/-! DEFINITION. The key scheduler (`42_key_scheduler.md`). -/

namespace Sys2Proof.Machine

/-- `ROTL5(h, n)`: circular left rotation, towards position 1 (rule R111; log entry 11). -/
def rotl5 (h : KeyHalf) (n : Nat) : KeyHalf :=
  build 5 (fun i => bitAt h ((i - 1 + n) % 5 + 1))

/-- `LS(s, n)`: each 5-bit half rotated by itself (rules R110, R112). -/
def ls (s : Key) (n : Nat) : Key :=
  (rotl5 (slice s 1 5) n ++ rotl5 (slice s 6 5) n : BitVec (5 + 5))

/-- State A, the key-schedule state after the first rotation (rule R113, steps 1 and 2). -/
def stateA (T : Tables) (key : Key) : Key := ls (p10 T key) 1

/-- State B, state A rotated by 2 (rule R113, step 4). -/
def stateB (T : Tables) (key : Key) : Key := ls (stateA T key) 2

/-- `KS(key)`, the pair of K1 and K2 (rule R113, steps 3 and 5). -/
def ks (T : Tables) (key : Key) : Subkey × Subkey :=
  (p8 T (stateA T key), p8 T (stateB T key))

end Sys2Proof.Machine
end

