-- ==== Sys2Proof/Machine/SBox.lean ====
section
/-! DEFINITION. The substitution boxes (`41_sbox.md`). -/

namespace Sys2Proof.Machine

/-- `row(n) = 2·n{1} + n{4}`, the outer two bits, position 1 the high one (rule R101; log entry 10). -/
def rowOf (n : Half) : Nat := 2 * (bitAt n 1).toNat + (bitAt n 4).toNat

/-- `col(n) = 2·n{2} + n{3}`, the inner two bits, position 2 the high one (rule R101; log entry 10). -/
def colOf (n : Half) : Nat := 2 * (bitAt n 2).toNat + (bitAt n 3).toNat

/-- `S[r][c]`, 0-based (rule R100). -/
def boxEntry (S : List (List Nat)) (r c : Nat) : Nat := (S.getD r []).getD c 0

/-- `bv(2, S[row(n)][col(n)])` (rules R101, R104). -/
def boxLookup (S : List (List Nat)) (n : Half) : BoxOut :=
  BitVec.ofNat 2 (boxEntry S (rowOf n) (colOf n))

/-- `S0(n)` (rule R102). -/
def s0 (T : Tables) (n : Half) : BoxOut := boxLookup T.data.s0 n

/-- `S1(n)` (rule R103). -/
def s1 (T : Tables) (n : Half) : BoxOut := boxLookup T.data.s1 n

end Sys2Proof.Machine
end

