-- ==== Sys2Proof/Machine/Round.lean ====
section
/-! DEFINITION. The round function F (`43_round_function.md`). -/

namespace Sys2Proof.Machine

/-- Steps 1 and 2: `x = EP(R) ^ SK` (rules R126, R127). -/
def mixed (T : Tables) (r : Half) (sk : Subkey) : Block := ep T r ^^^ sk

/-- Steps 3 to 5: the first half through S0, the second through S1, S0's output the high 2 bits (rules R128 to R130). -/
def substituted (T : Tables) (x : Block) : Half :=
  (s0 T (slice x 1 4) ++ s1 T (slice x 5 4) : BitVec (2 + 2))

/-- `F(R, SK)` (rules R125, R131, R132). -/
def roundF (T : Tables) (r : Half) (sk : Subkey) : Half := p4 T (substituted T (mixed T r sk))

end Sys2Proof.Machine
end

