-- ==== Sys2Proof/Machine/Feistel.lean ====
section
/-! DEFINITION. The Feistel core (`44_feistel_core.md`). -/

namespace Sys2Proof.Machine

/-- The two halves of a block in the network, left and right. -/
abbrev Halves := Half × Half

/-- Stage 1: IP, then the split into `L0` and `R0` (rule R141). -/
def splitBlock (T : Tables) (b : Block) : Halves := (slice (ip T b) 1 4, slice (ip T b) 5 4)

/-- Stage 2, round 1 with the swap: new left = `R0`, new right = `L0 ^ F(R0, SKa)` (rule R142). -/
def round1 (T : Tables) (ska : Subkey) (h : Halves) : Halves := (h.2, h.1 ^^^ roundF T h.2 ska)

/-- Stage 3, round 2 without a swap: final left = `L1 ^ F(R1, SKb)`, final right = `R1` (rule R143). -/
def round2 (T : Tables) (skb : Subkey) (h : Halves) : Halves := (h.1 ^^^ roundF T h.2 skb, h.2)

/-- Stage 4: `IPINV(L2 || R2)` (rule R144). -/
def joinBlock (T : Tables) (h : Halves) : Block := ipinv T (h.1 ++ h.2 : BitVec (4 + 4))

/-- `FEISTEL(b, SKa, SKb)`: exactly two rounds, no loop, no early exit (rules R140, R147). -/
def feistel (T : Tables) (b : Block) (ska skb : Subkey) : Block :=
  joinBlock T (round2 T skb (round1 T ska (splitBlock T b)))

/-- `ENCRYPT(b)` with the subkeys K1, K2: `(SK_a, SK_b) = (K1, K2)` (rule R145). -/
def encrypt (T : Tables) (k1 k2 : Subkey) (b : Block) : Block := feistel T b k1 k2

/-- `DECRYPT(b)` with the subkeys K1, K2: `(SK_a, SK_b) = (K2, K1)` (rule R146). -/
def decrypt (T : Tables) (k1 k2 : Subkey) (b : Block) : Block := feistel T b k2 k1

end Sys2Proof.Machine
end

