-- ==== Sys2Proof/Machine/Operands.lean ====
section
/-! DEFINITION. The fields and operand forms of the command word (`30_encoding.md` rules R60, R62, R63). -/

namespace Sys2Proof.Machine

/-- `op` = `CMD[11:10]` (rule R60). -/
def opField (w : Cmd) : BitVec 2 := w.extractLsb' 10 2

/-- `CMD[9:8]`, the two wires above a block operand, which must be `00` in an ENC or DEC word (rules R63, R64). -/
def aboveBlock (w : Cmd) : BitVec 2 := w.extractLsb' 8 2

/-- The key operand `CMD[9:0]` of LOADKEY: key position `p` is wire `10 − p` (rule R62). -/
def keyOperand (w : Cmd) : Key := w.extractLsb' 0 10

/-- The block operand `CMD[7:0]` of ENC and DEC: block position `p` is wire `8 − p` (rule R63). -/
def blockOperand (w : Cmd) : Block := w.extractLsb' 0 8

end Sys2Proof.Machine
end

