-- ==== Sys2Proof/Decode.lean ====
section
/-! DEFINITION. The decoder, total on the 4096 command words, and the encoder (`30_encoding.md` rules R60 to R65). -/

namespace Sys2Proof

/-- Why a command word is illegal (rule R64). Both raise the same fault. -/
inductive IllegalReason where
  /-- `op = 00`. -/
  | reservedOp
  /-- an ENC or DEC word with `CMD[9:8] ≠ 00`. -/
  | overWideBlock
  deriving DecidableEq, Repr

/-- What a command word decodes to: exactly one legal command, or Illegal (rule R65). -/
inductive Decoded where
  | legal (i : Instr)
  | illegal (why : IllegalReason)
  deriving DecidableEq, Repr

/-- The decoder (rules R61 to R65). An over-wide block is refused, never truncated (rules R44, R64). -/
def decode (w : Cmd) : Decoded :=
  if Machine.opField w = 0b00#2 then .illegal .reservedOp
  else if Machine.opField w = 0b01#2 then .legal (.loadkey (Machine.keyOperand w))
  else if Machine.aboveBlock w ≠ 0b00#2 then .illegal .overWideBlock
  else if Machine.opField w = 0b10#2 then .legal (.enc (Machine.blockOperand w))
  else .legal (.dec (Machine.blockOperand w))

/-- The encoder (rule R61 and the patterns of rule R65). -/
def encode : Instr → Cmd
  | .loadkey k => (0b01#2 ++ k : BitVec (2 + 10))
  | .enc b => (0b1000#4 ++ b : BitVec (4 + 8))
  | .dec b => (0b1100#4 ++ b : BitVec (4 + 8))

/-- The mask of a command's row in rule R65. -/
def rowMask : Instr → Cmd
  | .loadkey _ => 0xC00#12
  | .enc _ => 0xF00#12
  | .dec _ => 0xF00#12

/-- The match value of a command's row in rule R65. -/
def rowMatch : Instr → Cmd
  | .loadkey _ => 0x400#12
  | .enc _ => 0x800#12
  | .dec _ => 0xC00#12

/-- The command word whose bits are the low `nbits` bits of `w`, if it is one: the command port has 12 wires, so a number
of 4096 or more is no command word (rule R60; log entry 15). -/
def tableWord (nbits w : Nat) : Option Cmd :=
  if w % 2 ^ nbits < 4096 then some (BitVec.ofNat 12 (w % 2 ^ nbits)) else none

/-- The command that the decoder reads from the bits `w`, numbered as `spec/opcode_table.json` numbers them. -/
def decodeTableWord (nbits w : Nat) : Option Instr :=
  match tableWord nbits w with
  | none => none
  | some c =>
    match decode c with
    | .legal i => some i
    | .illegal _ => none

end Sys2Proof
end

