-- ==== Sys2Proof/Machine/State.lean ====
section
/-! DEFINITION. The state of the core (`10_state.md`), the host's side of its ports, and reset. -/

namespace Sys2Proof.Machine

/-- The three data registers of one cipher instance (`10_state.md` rule R20), written together (rules R21, R45). -/
structure KeyRegs where
  /-- `KEY`, the master key. -/
  key : Key
  /-- `K1`, the first subkey. -/
  k1 : Subkey
  /-- `K2`, the second subkey. -/
  k2 : Subkey
  deriving DecidableEq, Repr

/-- The two faults of the core (`60_exceptions.md` rule R180). There is no other: code 0 means no fault and code 3 is never
produced. -/
inductive FaultKind where
  /-- `NOKEY`: ENC or DEC with `KV = 0` (rule R181). -/
  | noKey
  /-- `ILLEGAL_CMD`: an illegal command word (rule R182). -/
  | illegalCmd
  deriving DecidableEq, Repr

/-- The one response a command produces (`30_encoding.md` rule R66): an output event, not a register (`10_state.md`
rule R28). What U11 says is never produced has no constructor: response kind `0b11`, a payload of Ack, a fault code 0 or
3. -/
inductive Response where
  /-- a LOADKEY that completed. -/
  | ack
  /-- an ENC or DEC that completed, with its result. -/
  | data (b : Block)
  /-- a command that faulted, or any command given to a faulted core, with the fault. -/
  | fault (c : FaultKind)
  deriving DecidableEq, Repr

/-- What the host can do to the core (`45_commands.md` rules R160, R166). Reading STATUS has no effect and is no event
(`10_state.md` rule R25). -/
inductive HostEvent where
  /-- present a command word on the command port. -/
  | command (w : Cmd)
  /-- assert reset between two commands (`70_reset_and_hazards.md` rule R200). -/
  | reset
  /-- assert reset while the word `w` is being worked on (`70_reset_and_hazards.md` rule R201). -/
  | resetInFlight (w : Cmd)
  deriving DecidableEq, Repr

/-- The state: the six elements of `10_state.md`, and the model's own two ends of the ports. -/
structure State where
  /-- `KEY`, `K1`, `K2`: `none` is the spec's own "hold no value", exactly when `KV = 0` (rules R23, R30, R31; log
  entry 2). -/
  regs : Option KeyRegs
  /-- `FAULT` and `FCODE`: `none` is the normal condition `FAULT = 0, FCODE = 0`, `some c` is `FAULT = 1` with the code of
  `c` recorded. By rule R24 (`FAULT = 0` if and only if `FCODE = 0`, and `FCODE = 3` never) these are all the values the
  two can have together (log entry 13). -/
  faulted : Option FaultKind
  /-- The model's own: what the host has presented and the core has not yet taken, in order (`20_memory.md` rules R47,
  R50; `70_reset_and_hazards.md` rule R205; log entry 3). -/
  hostIn : List HostEvent
  /-- The model's own: the responses produced so far, oldest first (`45_commands.md` rule R160; log entry 4). No step
  reads it. -/
  responses : List Response
  deriving DecidableEq, Repr

/-- The reasons to stop with a fault: none. The faults of the spec (`60_exceptions.md` rule R180) are exceptions whose
entry it describes, so they are taken, as next states (log entry 7). Safe: no step stops. -/
inductive Fault
  deriving DecidableEq, Repr

/-- The reasons to refuse: only the prescribed one, which no arm of `exec` answers. -/
inductive Refusal where
  /-- An instruction with no meaning yet, by its mnemonic. Raised by no arm of this model. Safe. -/
  | notModelled (mnemonic : String)
  deriving DecidableEq, Repr

/-- What a step answers. -/
abbrev Result := Host.Outcome State Fault Refusal

/-- The machine right after reset at power-up (`10_state.md` rule R30): the flags 0, the key registers holding no value;
no host event presented and no response produced yet (log entries 3 and 4). -/
def State.reset : State where
  regs := none
  faulted := none
  hostIn := []
  responses := []

end Sys2Proof.Machine
end

