-- ==== Sys2Proof/Machine/Flags.lean ====
section
/-! DEFINITION. The flags as the host sees them (`10_state.md` rules R23 to R25), the fault codes (`60_exceptions.md` rule
R180) and the response word (`30_encoding.md` rule R66). -/

namespace Sys2Proof.Machine

/-- `KV`: the key registers hold values (`10_state.md` rules R23, R31). -/
def State.kv (s : State) : Bool := s.regs.isSome

/-- The code of a fault: `NOKEY` 1, `ILLEGAL_CMD` 2 (`60_exceptions.md` rule R180). -/
def FaultKind.code : FaultKind → FaultCode
  | .noKey => 1#2
  | .illegalCmd => 2#2

/-- `FAULT`: a fault has been taken since the last reset (`10_state.md` rule R24). -/
def State.fault (s : State) : Bool := s.faulted.isSome

/-- `FCODE`: the code of the fault taken, 0 if none was (`10_state.md` rule R24). -/
def State.fcode (s : State) : FaultCode :=
  match s.faulted with
  | none => 0#2
  | some c => c.code

/-- `STATUS`: `KV` on bit 0, `FAULT` on bit 1, `FCODE` on bits 3:2 (rule R25). A view; reading it has no effect. -/
def State.status (s : State) : Status :=
  (s.fcode ++ (BitVec.ofBool s.fault ++ BitVec.ofBool s.kv : BitVec (1 + 1)) : BitVec (2 + 2))

/-- The response word: the kind on `RSP[9:8]`, the payload on `RSP[7:0]` (rule R66). -/
def Response.toRsp : Response → Rsp
  | .ack => (0b00#2 ++ 0x00#8 : BitVec (2 + 8))
  | .data b => (0b01#2 ++ b : BitVec (2 + 8))
  | .fault c => (0b10#2 ++ (0b000000#6 ++ c.code : BitVec (6 + 2)) : BitVec (2 + (6 + 2)))

/-- A `Fault` response. -/
def Response.isFault : Response → Bool
  | .fault _ => true
  | _ => false

end Sys2Proof.Machine
end

