-- ==== Sys2Proof/Machine/Ops.lean ====
section
/-! DEFINITION. The named operations over the state: responding, writing and reading the key registers, taking a fault,
the faulted condition, reset, and taking the next host event. -/

namespace Sys2Proof.Machine

/-- `respond r`: one response, after the command's state writes (`30_encoding.md` rule R66). -/
def respond (r : Response) (s : State) : State := { s with responses := s.responses ++ [r] }

/-- `KEY <- …; K1 <- …; K2 <- …; KV <- 1`, one indivisible update (`45_commands.md` rule R161, `20_memory.md` rule R45). -/
def writeKeyRegs (r : KeyRegs) (s : State) : State := { s with regs := some r }

/-- `raise Fault(c)`, taking a fault: `FAULT <- 1; FCODE <- c; respond Fault(c)` and nothing else (`60_exceptions.md` rule
R184). No program counter, cause register or mode is saved, because there is none. -/
def raiseFault (c : FaultKind) (s : State) : State :=
  respond (.fault c) { s with faulted := some c }

/-- The answer to any word of a core that has taken the fault `c`: `Fault(FCODE)`, no state change (`60_exceptions.md` rule
R185). -/
def answerFaulted (c : FaultKind) (s : State) : State := respond (.fault c) s

/-- The first check of every command: in the faulted condition nothing else is looked at (`60_exceptions.md` rule R183
(1)). -/
def unlessFaulted (s : State) (act : State → State) : State :=
  match s.faulted with
  | some c => answerFaulted c s
  | none => act s

/-- Read K1 and K2 for a block command: with `KV = 0` the command raises NOKEY (`60_exceptions.md` rules R181, R183 (3)). -/
def withSubkeys (s : State) (act : Subkey → Subkey → State → State) : State :=
  match s.regs with
  | none => raiseFault .noKey s
  | some r => act r.k1 r.k2 s

/-- An illegal word: ILLEGAL_CMD unless the core is faulted (`60_exceptions.md` rules R182, R183 (2)). -/
def illegalCommand (s : State) : State := unlessFaulted s (raiseFault .illegalCmd)

/-- The reset transition (`70_reset_and_hazards.md` rule R200): each of the six elements at its reset value
(`10_state.md` rule R30), and no response. It is also the only return from the faulted condition (`60_exceptions.md` rule
R186). -/
def resetCore (s : State) : State :=
  { s with regs := State.reset.regs, faulted := State.reset.faulted }

/-- Accept one command word: decode it and run the command by `run`, or take ILLEGAL_CMD (`45_commands.md` rule R160). -/
def accept (run : Instr → State → Result) (w : Cmd) (s : State) : Result :=
  match decode w with
  | .legal i => run i s
  | .illegal _ => .next (illegalCommand s)

/-- Take the host's next event. With none presented the core is idle and keeps its state (`60_exceptions.md` rule R189;
log entry 5). A command caught by reset is as if it had never been accepted (`70_reset_and_hazards.md` rule R201; log
entry 6). -/
def takeEvent (run : Instr → State → Result) (s : State) : Result :=
  match s.hostIn with
  | [] => .next s
  | .command w :: rest => accept run w { s with hostIn := rest }
  | .reset :: rest => .next (resetCore { s with hostIn := rest })
  | .resetInFlight _ :: rest => .next (resetCore { s with hostIn := rest })

/-- Present a host event ahead of all others. -/
def presentFirst (e : HostEvent) (s : State) : State := { s with hostIn := e :: s.hostIn }

end Sys2Proof.Machine
end

