-- ==== Sys2Proof/Machine/Tables.lean ====
section
/-! DEFINITION. `TABLES_STD`, the named default of the configuration (`40_permutation_engine.md` rule R93, `41_sbox.md`
rule R106), from general knowledge and not from the source (`93_implementation_defined.md` G1). -/

namespace Sys2Proof.Machine

/-- The entries of `TABLES_STD`. PRESUMED by the spec itself (G1), unsafe: log entry 1. -/
def tablesStdData : TableData where
  p10   := [3, 5, 2, 7, 4, 10, 1, 9, 8, 6]
  p8    := [6, 3, 7, 4, 8, 5, 10, 9]
  ip    := [2, 6, 3, 1, 4, 8, 5, 7]
  ipinv := [4, 1, 3, 5, 7, 2, 8, 6]
  ep    := [4, 1, 2, 3, 2, 3, 4, 1]
  p4    := [2, 4, 3, 1]
  s0    := [[1, 0, 3, 2], [3, 2, 1, 0], [0, 2, 1, 3], [3, 1, 3, 2]]
  s1    := [[0, 1, 2, 3], [2, 0, 1, 3], [3, 0, 1, 0], [2, 1, 0, 3]]

/-- `TABLES_STD` as a configuration: it meets rules R81, R89 and R100. -/
def tablesStd : Tables := ⟨tablesStdData, by decide⟩

/-- The configuration that `exec` and `step` run under: the spec's named default (`00_scope.md` rule R6, D1). The same
machine under any other configuration is `stepWith` (log entry 8). -/
def tables : Tables := tablesStd

end Sys2Proof.Machine
end

