-- ==== Sys2Proof/Machine/Commands.lean ====
section
/-! DEFINITION. The meanings of the three commands (`45_commands.md` rules R161 to R163), each for any configuration, and
then under the configuration the machine runs. -/

namespace Sys2Proof.Machine

/-- `LOADKEY k` under the configuration `T` (rule R161, and rule R164 when a key is loaded already). -/
def loadkeyWith (T : Tables) (k : Key) (s : State) : State :=
  unlessFaulted s (fun s => respond .ack (writeKeyRegs ⟨k, (ks T k).1, (ks T k).2⟩ s))

/-- `ENC b` under the configuration `T` (rule R162). -/
def encWith (T : Tables) (b : Block) (s : State) : State :=
  unlessFaulted s (fun s => withSubkeys s (fun k1 k2 s => respond (.data (encrypt T k1 k2 b)) s))

/-- `DEC b` under the configuration `T` (rule R163). -/
def decWith (T : Tables) (b : Block) (s : State) : State :=
  unlessFaulted s (fun s => withSubkeys s (fun k1 k2 s => respond (.data (decrypt T k1 k2 b)) s))

/-- A command under the configuration `T`: `step(TABLES, σ, CMD)` of rule R160 for a legal word. -/
def execWith (T : Tables) (i : Instr) (s : State) : Result :=
  match i with
  | .loadkey k => .next (loadkeyWith T k s)
  | .enc b => .next (encWith T b s)
  | .dec b => .next (decWith T b s)

/-- `LOADKEY k`. -/
def execLoadkey (k : Key) (s : State) : Result := .next (loadkeyWith tables k s)

/-- `ENC b`. -/
def execEnc (b : Block) (s : State) : Result := .next (encWith tables b s)

/-- `DEC b`. -/
def execDec (b : Block) (s : State) : Result := .next (decWith tables b s)

end Sys2Proof.Machine
end

