-- ==== Sys2Proof/Machine/Step.lean ====
section
/-! DEFINITION. One step: take the host's next event (`45_commands.md` rule R160). -/

namespace Sys2Proof.Machine

/-- One step under the configuration the machine runs. -/
def step (s : State) : Host.Outcome State Fault Refusal := takeEvent exec s

/-- One step under any configuration `T`: the `step(TABLES, σ, CMD)` of rule R160. -/
def stepWith (T : Tables) (s : State) : Host.Outcome State Fault Refusal := takeEvent (execWith T) s

/-- `s` with the command word of the bits `w` presented first on the command port, so that the very next step takes it. A
number that is no 12-bit command word cannot be presented, and leaves `s` as it is (log entry 15). -/
def State.withFetchWord (s : State) (nbits w : Nat) : State :=
  match tableWord nbits w with
  | some c => presentFirst (.command c) s
  | none => s

end Sys2Proof.Machine
end

