-- ==== Sys2Proof/Machine/Text.lean ====
section
/-! DEFINITION. The text form of commands (`00_scope.md` rule R10, `30_encoding.md` rules R67, R68): notation for the host's
side, used by no step. -/

namespace Sys2Proof.Machine

/-- The text form of `v : BV(w)`: `w` characters, the leftmost is position 1 (rule R10). -/
def bitsText {w : Nat} (v : BitVec w) : List Char :=
  (List.range w).map (fun i => if bitAt v (i + 1) then '1' else '0')

/-- Read the text form of a `BV(w)`; text of another length or with another character is none (rule R67). -/
def readBits (w : Nat) (cs : List Char) : Option (BitVec w) :=
  if operandTextOk w cs then some (build w (fun i => cs.getD (i - 1) '0' == '1')) else none

/-- The sixteen hexadecimal digits, in order of value. -/
def hexDigits : List Char :=
  ['0', '1', '2', '3', '4', '5', '6', '7', '8', '9', 'A', 'B', 'C', 'D', 'E', 'F']

/-- The digit of a 4-bit value. -/
def hexText (v : BitVec 4) : Char := hexDigits.getD v.toNat '0'

/-- The value of a hexadecimal digit. -/
def readHex (c : Char) : Option (BitVec 4) :=
  if hexDigits.contains c then some (BitVec.ofNat 4 (hexDigits.idxOf c)) else none

def loadkeyName : List Char := ['L', 'O', 'A', 'D', 'K', 'E', 'Y']
def encName : List Char := ['E', 'N', 'C']
def decName : List Char := ['D', 'E', 'C']
def wordName : List Char := ['.', 'w', 'o', 'r', 'd']

/-- How a listing writes a command word: its mnemonic and binary operand, or `.word 0xNNN` if it is illegal (rule R67). -/
def listing (w : Cmd) : List Char :=
  match decode w with
  | .legal (.loadkey k) => loadkeyName ++ ' ' :: bitsText k
  | .legal (.enc b) => encName ++ ' ' :: bitsText b
  | .legal (.dec b) => decName ++ ' ' :: bitsText b
  | .illegal _ =>
    wordName ++ ' ' :: ['0', 'x', hexText (w.extractLsb' 8 4), hexText (w.extractLsb' 4 4), hexText (w.extractLsb' 0 4)]

/-- Drop a comment: `;` to the end of the line (rule R67). -/
def dropComment (cs : List Char) : List Char := cs.takeWhile (fun c => c != ';')

/-- The words of a line, separated by spaces (log entry 14). -/
def lineWords : List Char → List (List Char)
  | [] => []
  | c :: cs =>
    if c == ' ' then
      lineWords cs
    else
      match cs with
      | [] => [[c]]
      | d :: _ =>
        if d == ' ' then [c] :: lineWords cs
        else
          match lineWords cs with
          | [] => [[c]]
          | w :: ws => (c :: w) :: ws

/-- The operand of `.word`: `0x` and three hexadecimal digits (rule R67). -/
def readWord : List Char → Option Cmd
  | ['0', 'x', a, b, c] =>
    match readHex a, readHex b, readHex c with
    | some x, some y, some z => some (x ++ (y ++ z : BitVec (4 + 4)) : BitVec (4 + (4 + 4)))
    | _, _, _ => none
  | _ => none

/-- The command word of one line of text, or none if the line is not a command (rule R67). -/
def assembleLine (line : List Char) : Option Cmd :=
  match lineWords (dropComment line) with
  | [name, operand] =>
    if name = loadkeyName then (readBits 10 operand).map (fun k => encode (.loadkey k))
    else if name = encName then (readBits 8 operand).map (fun b => encode (.enc b))
    else if name = decName then (readBits 8 operand).map (fun b => encode (.dec b))
    else if name = wordName then readWord operand
    else none
  | _ => none

end Sys2Proof.Machine
end

