-- ==== Sys2Proof/Safety.lean ====
section
/-! DEFINITION. What claims are stated in: the invariants of the spec, a run gone wrong, and the machine under any
configuration. -/

namespace Sys2Proof

open Machine

/-- The machine under the configuration `T`. `Sys2Proof.core` is the one under `Machine.tables`. -/
def coreWith (T : Tables) : Host.Core where
  State := State
  Fault := Fault
  Refusal := Refusal
  step := stepWith T
  reset := State.reset

/-- `n` steps under the configuration `T`. -/
def runWith (T : Tables) (n : Nat) (s : State) : Result := (coreWith T).run n s

/-- `n` steps of the machine. -/
def runMachine (n : Nat) (s : State) : Result := core.run n s

/-- A list of commands as the host presents it: their command words in order (`45_commands.md` rule R160). -/
def present (is : List Instr) : List HostEvent := is.map (fun i => .command (encode i))

/-- A faulted core: a run that reached it has gone wrong (`60_exceptions.md` rule R185). -/
def GoneWrong (s : State) : Prop := s.fault = true

/-- `10_state.md` rule R22: if `KV = 1` then `K1 = KS(KEY).1` and `K2 = KS(KEY).2`. -/
def KeysDerived (T : Tables) (s : State) : Prop :=
  ∀ r, s.regs = some r → r.k1 = (ks T r.key).1 ∧ r.k2 = (ks T r.key).2

/-- `10_state.md` rule R24: `FAULT = 0` if and only if `FCODE = 0`, and `FCODE = 3` is never produced. -/
def FaultCoded (s : State) : Prop :=
  (s.fault = false ↔ s.fcode = 0#2) ∧ s.fcode ≠ 3#2

/-- `NOKEY` is recorded only while no key is loaded (`95_test_vectors.md` section 3.7: STATUS `0b0111` is unreachable). -/
def NoKeyOnlyUnkeyed (s : State) : Prop := s.fcode = FaultKind.noKey.code → s.regs = none

/-- A response word the core can produce (`30_encoding.md` rule R66, U11): never kind `0b11`; an Ack has payload 0; a Fault
has the code 1 or 2 and 0 above it. -/
def ResponseProper (r : Response) : Prop :=
  r.toRsp.extractLsb' 8 2 ≠ 0b11#2 ∧
  (r.toRsp.extractLsb' 8 2 = 0b00#2 → r.toRsp = 0x000#10) ∧
  (r.toRsp.extractLsb' 8 2 = 0b10#2 → r.toRsp = 0x201#10 ∨ r.toRsp = 0x202#10)

/-- The invariant of every reachable state. -/
structure Inv (T : Tables) (s : State) : Prop where
  keys : KeysDerived T s
  coded : FaultCoded s
  unkeyed : NoKeyOnlyUnkeyed s
  proper : ∀ r ∈ s.responses, ResponseProper r

/-- The rows of the opcode map, as checks of what a word decodes to (`30_encoding.md` rule R65). -/
def Decoded.isReservedOp : Decoded → Bool
  | .illegal .reservedOp => true
  | _ => false

def Decoded.isOverWide : Decoded → Bool
  | .illegal .overWideBlock => true
  | _ => false

def Decoded.isLoadkey : Decoded → Bool
  | .legal (.loadkey _) => true
  | _ => false

def Decoded.isEnc : Decoded → Bool
  | .legal (.enc _) => true
  | _ => false

def Decoded.isDec : Decoded → Bool
  | .legal (.dec _) => true
  | _ => false

def Decoded.isLegal : Decoded → Bool
  | .legal _ => true
  | .illegal _ => false

/-- How many of the command words from `lo` to `hi − 1` decode to something with the property `p`. -/
def countWords (lo hi : Nat) (p : Decoded → Bool) : Nat :=
  (List.range (hi - lo)).countP (fun n => p (decode (BitVec.ofNat 12 (lo + n))))

/-- The encryption of the block `b` under the key `key`: the subkeys are those of `key` (`44_feistel_core.md` rule R145). -/
def encryptUnder (T : Tables) (key : Key) (b : Block) : Block := encrypt T (ks T key).1 (ks T key).2 b

/-- The decryption of the block `b` under the key `key` (`44_feistel_core.md` rule R146). -/
def decryptUnder (T : Tables) (key : Key) (b : Block) : Block := decrypt T (ks T key).1 (ks T key).2 b

/-- The two events that are a reset of the core (`70_reset_and_hazards.md` rules R200, R201). -/
def Machine.HostEvent.IsReset : HostEvent → Prop
  | .command _ => False
  | .reset => True
  | .resetInFlight _ => True

end Sys2Proof
end

