-- ==== Sys2Proof/Certificates/Slice0/Obligations.lean ====
section
/-! DEFINITION. The statements for the provers, from the numbered rules of the spec. Where a number depends on the entries
of the tables, the statement names `tablesStd` or runs under `Machine.tables`, which is `TABLES_STD` (log entry 1); where a
statement says "for every configuration", it holds for every well-formed `TABLES`. -/

open Sys2Proof Sys2Proof.Machine

/-! ## Encoding -/

/-- `30_encoding.md` rules R60 to R65: the encoder and the decoder are inverse to each other on the legal words, every
operand at every value. -/
def Obligations.DecodeAndEncodeAgree : Prop :=
  (∀ i : Instr, decode (encode i) = .legal i) ∧
  (∀ (w : Cmd) (i : Instr), decode w = .legal i → encode i = w)

/-- `30_encoding.md` rule R65: the complete map of the 4096 words by value, with the counts of its rows and its totals, and
the same as match and mask, the three patterns disjoint. -/
def Obligations.OpcodeMapComplete : Prop :=
  (∀ w : Cmd, decode w =
    if w.toNat < 0x400 then .illegal .reservedOp
    else if w.toNat < 0x800 then .legal (.loadkey (w.extractLsb' 0 10))
    else if w.toNat < 0x900 then .legal (.enc (w.extractLsb' 0 8))
    else if w.toNat < 0xC00 then .illegal .overWideBlock
    else if w.toNat < 0xD00 then .legal (.dec (w.extractLsb' 0 8))
    else .illegal .overWideBlock) ∧
  (∀ w : Cmd,
    (w &&& 0xC00#12 = 0x400#12 ↔ ∃ k, decode w = .legal (.loadkey k)) ∧
    (w &&& 0xF00#12 = 0x800#12 ↔ ∃ b, decode w = .legal (.enc b)) ∧
    (w &&& 0xF00#12 = 0xC00#12 ↔ ∃ b, decode w = .legal (.dec b)) ∧
    ¬ (w &&& 0xC00#12 = 0x400#12 ∧ w &&& 0xF00#12 = 0x800#12) ∧
    ¬ (w &&& 0xC00#12 = 0x400#12 ∧ w &&& 0xF00#12 = 0xC00#12) ∧
    ¬ (w &&& 0xF00#12 = 0x800#12 ∧ w &&& 0xF00#12 = 0xC00#12)) ∧
  countWords 0x000 0x400 Decoded.isReservedOp = 1024 ∧
  countWords 0x400 0x800 Decoded.isLoadkey = 1024 ∧
  countWords 0x800 0x900 Decoded.isEnc = 256 ∧
  countWords 0x900 0xC00 Decoded.isOverWide = 768 ∧
  countWords 0xC00 0xD00 Decoded.isDec = 256 ∧
  countWords 0xD00 0x1000 Decoded.isOverWide = 768 ∧
  countWords 0x000 0x1000 Decoded.isLegal = 1536 ∧
  countWords 0x000 0x1000 (fun d => !d.isLegal) = 2560

/-- `30_encoding.md` rule R62: the operand of a LOADKEY word, position by position and by value, and all 1024 keys legal. -/
def Obligations.KeyOperandPlacement : Prop :=
  (∀ (w : Cmd) (k : Key), decode w = .legal (.loadkey k) →
    (∀ p, 1 ≤ p → p ≤ 10 → bitAt k p = w.getLsbD (10 - p)) ∧ w.toNat = 0x400 + k.toNat) ∧
  (∀ k : Key, ∃ w : Cmd, decode w = .legal (.loadkey k))

/-- `30_encoding.md` rule R63: the operand of an ENC or DEC word, its two unused wires 0, all 256 blocks legal, and a word
whose unused wires are not 0 is no ENC or DEC (checked, not ignored). -/
def Obligations.BlockOperandPlacement : Prop :=
  (∀ (w : Cmd) (b : Block), (decode w = .legal (.enc b) ∨ decode w = .legal (.dec b)) →
    (∀ p, 1 ≤ p → p ≤ 8 → bitAt b p = w.getLsbD (8 - p)) ∧ w.getLsbD 9 = false ∧ w.getLsbD 8 = false) ∧
  (∀ b : Block, (∃ w : Cmd, decode w = .legal (.enc b)) ∧ ∃ w : Cmd, decode w = .legal (.dec b)) ∧
  (∀ w : Cmd, (w.extractLsb' 10 2 = 0b10#2 ∨ w.extractLsb' 10 2 = 0b11#2) → w.extractLsb' 8 2 ≠ 0b00#2 →
    ∃ why, decode w = .illegal why)

/-- `30_encoding.md` rule R64 and `60_exceptions.md` rule R182: exactly which words are illegal, and that in a core that is
not faulted an illegal word raises ILLEGAL_CMD whatever `KV` is: it writes no data register and returns no data. -/
def Obligations.IllegalWordsRaiseIllegalCmd : Prop :=
  (∀ w : Cmd, (∃ why, decode w = .illegal why) ↔
    (w.extractLsb' 10 2 = 0b00#2 ∨
      ((w.extractLsb' 10 2 = 0b10#2 ∨ w.extractLsb' 10 2 = 0b11#2) ∧ w.extractLsb' 8 2 ≠ 0b00#2))) ∧
  (∀ (s : State) (w : Cmd) (rest : List HostEvent), s.hostIn = .command w :: rest → s.fault = false →
    (∃ why, decode w = .illegal why) →
    step s = .next { s with hostIn := rest, faulted := some .illegalCmd, responses := s.responses ++ [.fault .illegalCmd] })

/-- `95_test_vectors.md` section 3.7: the sample words, each written from the bit pattern of its row. -/
def Obligations.SampleWordsDecode : Prop :=
  decode 0b011010000010#12 = .legal (.loadkey 0b1010000010#10) ∧
  decode 0b010000000000#12 = .legal (.loadkey 0#10) ∧
  decode 0b011111111111#12 = .legal (.loadkey 0x3FF#10) ∧
  decode 0b100010101010#12 = .legal (.enc 0b10101010#8) ∧
  decode 0b100011111111#12 = .legal (.enc 0xFF#8) ∧
  decode 0b110010001101#12 = .legal (.dec 0b10001101#8) ∧
  decode 0b110011111111#12 = .legal (.dec 0xFF#8) ∧
  decode 0x000#12 = .illegal .reservedOp ∧
  decode 0x3FF#12 = .illegal .reservedOp ∧
  decode 0x900#12 = .illegal .overWideBlock ∧
  decode 0xBFF#12 = .illegal .overWideBlock ∧
  decode 0xD00#12 = .illegal .overWideBlock ∧
  decode 0xFFF#12 = .illegal .overWideBlock

/-- `30_encoding.md` rule R67: a listing of any command word assembles to that word, with or without a comment; an operand
of the wrong length or with another character is not a command; and the rule's three examples. -/
def Obligations.TextOfCommandsRoundTrips : Prop :=
  (∀ w : Cmd, assembleLine (listing w) = some w) ∧
  (∀ (w : Cmd) (comment : List Char), assembleLine (listing w ++ ' ' :: ';' :: comment) = some w) ∧
  (∀ operand : List Char, ' ' ∉ operand → ';' ∉ operand → operandTextOk 10 operand = false →
    assembleLine (loadkeyName ++ ' ' :: operand) = none) ∧
  (∀ operand : List Char, ' ' ∉ operand → ';' ∉ operand → operandTextOk 8 operand = false →
    assembleLine (encName ++ ' ' :: operand) = none ∧ assembleLine (decName ++ ' ' :: operand) = none) ∧
  assembleLine (loadkeyName ++ ' ' :: ['1', '0', '1', '0', '0', '0', '0', '0', '1', '0']) = some 0x682#12 ∧
  assembleLine (encName ++ ' ' :: ['1', '0', '1', '0', '1', '0', '1', '0']) = some 0x8AA#12 ∧
  assembleLine (decName ++ ' ' :: ['1', '0', '0', '0', '1', '1', '0', '1']) = some 0xC8D#12

/-! ## The step -/

/-- A step runs the decoded command: when the next host event is a command word that decodes to `i`, the step is `exec i`
at the state with that event taken and nothing else changed (`45_commands.md` rule R160). The list of host events is the
model's own form of the command port (log entry 3). -/
def Obligations.StepRunsDecodedCommand : Prop :=
  ∀ (s : State) (w : Cmd) (i : Instr) (rest : List HostEvent),
    s.hostIn = .command w :: rest → decode w = .legal i → step s = exec i { s with hostIn := rest }

/-- The machine that runs is the machine under `Machine.tables`: `exec`, `step` and `core` are the members at that
configuration of the families that the statements "for every configuration" speak of (the model's choice, log entry 8). -/
def Obligations.MachineRunsUnderTables : Prop :=
  (∀ i s, exec i s = execWith tables i s) ∧ (∀ s, step s = stepWith tables s) ∧ core = coreWith tables

/-- `45_commands.md` rule R160 (total on all states and all words), under every configuration: any number of steps from any
state answers a next state, never a stop. -/
def Obligations.RunNeverStops : Prop :=
  ∀ (T : Tables) (n : Nat) (s : State), ∃ t, runWith T n s = .next t

/-- `60_exceptions.md` rule R189 (H6): with no host event the core is idle, for any number of steps, and keeps its state.
That an idle core still steps is the model's choice (log entry 5). -/
def Obligations.IdleCoreKeepsItsState : Prop :=
  ∀ (n : Nat) (s : State), s.hostIn = [] → runMachine n s = .next s

/-- `20_memory.md` rule R47: the events of the host are taken one at a time in order, so a run over a first list of events
and then a second is the run over both; and the state after the first is independent of what is presented after it. -/
def Obligations.EventsTakenInOrder : Prop :=
  ∀ (T : Tables) (es fs : List HostEvent) (s t : State),
    runWith T es.length { s with hostIn := es } = .next t →
    t.hostIn = [] ∧
    runWith T es.length { s with hostIn := es ++ fs } = .next { t with hostIn := fs } ∧
    runWith T (es.length + fs.length) { s with hostIn := es ++ fs } = runWith T fs.length { t with hostIn := fs }

/-! ## The commands -/

/-- `45_commands.md` rule R161, LOADKEY: its effect in every state that is not faulted, whatever `KV` is; in a faulted core
it does nothing; its encoding; loading the key already loaded changes nothing but the response; the worked example. -/
def Obligations.LoadkeyMeaning : Prop :=
  (∀ (k : Key) (s : State), s.fault = false →
    exec (.loadkey k) s = .next { s with
      regs := some { key := k, k1 := (ks tables k).1, k2 := (ks tables k).2 }
      responses := s.responses ++ [.ack] }) ∧
  (∀ (k : Key) (s : State) (c : FaultKind), s.faulted = some c →
    exec (.loadkey k) s = .next { s with responses := s.responses ++ [.fault c] }) ∧
  (∀ k : Key, (encode (.loadkey k)).toNat = 0x400 + k.toNat) ∧
  (∀ (s : State) (r : KeyRegs), s.fault = false → s.regs = some r → KeysDerived tables s →
    exec (.loadkey r.key) s = .next { s with responses := s.responses ++ [.ack] }) ∧
  (exec (.loadkey 0b1010000010#10) State.reset = .next { State.reset with
      regs := some { key := 0b1010000010#10, k1 := 0b10100100#8, k2 := 0b01000011#8 }
      responses := [.ack] } ∧ Response.ack.toRsp = 0x000#10)

/-- `45_commands.md` rule R162, ENC: its result and that it writes no state; NOKEY with `KV = 0`; an over-wide ENC word is
ILLEGAL_CMD, decided before the key check; its encoding; the worked example. -/
def Obligations.EncMeaning : Prop :=
  (∀ (b : Block) (s : State) (r : KeyRegs), s.fault = false → s.regs = some r →
    exec (.enc b) s = .next { s with responses := s.responses ++ [.data (feistel tables b r.k1 r.k2)] }) ∧
  (∀ (b : Block) (s : State), s.fault = false → s.kv = false →
    exec (.enc b) s = .next { s with faulted := some .noKey, responses := s.responses ++ [.fault .noKey] }) ∧
  (∀ (w : Cmd) (s : State) (rest : List HostEvent), s.fault = false → s.hostIn = .command w :: rest →
    w.extractLsb' 10 2 = 0b10#2 → w.extractLsb' 8 2 ≠ 0b00#2 →
    step s = .next { s with hostIn := rest, faulted := some .illegalCmd, responses := s.responses ++ [.fault .illegalCmd] }) ∧
  (∀ b : Block, (encode (.enc b)).toNat = 0x800 + b.toNat) ∧
  (∀ s : State, s.fault = false → s.regs = some ⟨0b1010000010#10, 0b10100100#8, 0b01000011#8⟩ →
    exec (.enc 0b10101010#8) s = .next { s with responses := s.responses ++ [.data 0b10001101#8] }) ∧
  (Response.data 0b10001101#8).toRsp = 0x18D#10

/-- `45_commands.md` rule R163, DEC: as ENC with the subkeys in the other order; and DEC of the response of an ENC under the
same key returns the ENC operand. -/
def Obligations.DecMeaning : Prop :=
  (∀ (b : Block) (s : State) (r : KeyRegs), s.fault = false → s.regs = some r →
    exec (.dec b) s = .next { s with responses := s.responses ++ [.data (feistel tables b r.k2 r.k1)] }) ∧
  (∀ (b : Block) (s : State), s.fault = false → s.kv = false →
    exec (.dec b) s = .next { s with faulted := some .noKey, responses := s.responses ++ [.fault .noKey] }) ∧
  (∀ (w : Cmd) (s : State) (rest : List HostEvent), s.fault = false → s.hostIn = .command w :: rest →
    w.extractLsb' 10 2 = 0b11#2 → w.extractLsb' 8 2 ≠ 0b00#2 →
    step s = .next { s with hostIn := rest, faulted := some .illegalCmd, responses := s.responses ++ [.fault .illegalCmd] }) ∧
  (∀ b : Block, (encode (.dec b)).toNat = 0xC00 + b.toNat) ∧
  (∀ (k1 k2 : Subkey) (b : Block), feistel tables (feistel tables b k1 k2) k2 k1 = b) ∧
  (∀ s : State, s.fault = false → s.regs = some ⟨0b1010000010#10, 0b10100100#8, 0b01000011#8⟩ →
    exec (.dec 0b10001101#8) s = .next { s with responses := s.responses ++ [.data 0b10101010#8] }) ∧
  (Response.data 0b10101010#8).toRsp = 0x1AA#10

/-- The frame of the three commands, in every state and whether or not they fault: the host's events and the earlier
responses stay and exactly one response is added; ENC and DEC never change the key registers, and change no flag when they
complete; LOADKEY never changes `FAULT` or `FCODE`, and changes no key register in a faulted core (`20_memory.md` rule R45,
`45_commands.md` rules R161 to R163). -/
def Obligations.CommandFrame : Prop :=
  ∀ (i : Instr) (s t : State), exec i s = .next t →
    t.hostIn = s.hostIn ∧
    (∃ r, t.responses = s.responses ++ [r]) ∧
    (∀ b, (i = .enc b ∨ i = .dec b) →
      t.regs = s.regs ∧ ((s.fault = true ∨ s.kv = true) → t.fault = s.fault ∧ t.fcode = s.fcode)) ∧
    (∀ k, i = .loadkey k →
      t.fault = s.fault ∧ t.fcode = s.fcode ∧ (s.fault = true → t.regs = s.regs))

/-- `45_commands.md` rule R164, re-keying, under every configuration: a LOADKEY replaces the three registers in one step and
nothing of the old key remains; the ENC or DEC after it uses the new subkeys; no ENC or DEC changes them; and the rule's
example. -/
def Obligations.RekeyingForgetsTheOldKey : Prop :=
  (∀ (T : Tables) (k : Key) (s : State) (old : Option KeyRegs), s.fault = false →
    execWith T (.loadkey k) { s with regs := old } =
      .next { s with regs := some ⟨k, (ks T k).1, (ks T k).2⟩, responses := s.responses ++ [.ack] }) ∧
  (∀ (T : Tables) (k : Key) (b : Block) (s : State), s.fault = false →
    runWith T 2 { s with hostIn := present [.loadkey k, .enc b] } = .next { s with
      regs := some ⟨k, (ks T k).1, (ks T k).2⟩, hostIn := []
      responses := s.responses ++ [.ack, .data (encryptUnder T k b)] } ∧
    runWith T 2 { s with hostIn := present [.loadkey k, .dec b] } = .next { s with
      regs := some ⟨k, (ks T k).1, (ks T k).2⟩, hostIn := []
      responses := s.responses ++ [.ack, .data (decryptUnder T k b)] }) ∧
  (∀ (T : Tables) (b : Block) (s t : State),
    (execWith T (.enc b) s = .next t ∨ execWith T (.dec b) s = .next t) → t.regs = s.regs) ∧
  runMachine 4 { State.reset with
      hostIn := present
        [.loadkey 0b1010000010#10, .enc 0b01000001#8, .loadkey 0b1100011110#10, .enc 0b01000001#8] } =
    .next { State.reset with
      regs := some ⟨0b1100011110#10, 0b11101001#8, 0b10100111#8⟩
      responses := [.ack, .data 0b00010101#8, .ack, .data 0b01001100#8] }

/-- `10_state.md` rule R21, `20_memory.md` rule R45, under every configuration: one step leaves the three data registers as
they are, or is a reset, or is a LOADKEY that writes all three together. -/
def Obligations.OnlyLoadkeyWritesKeyRegisters : Prop :=
  ∀ (T : Tables) (s t : State), stepWith T s = .next t →
    t.regs = s.regs ∨
    (t.regs = none ∧ ∃ e rest, s.hostIn = e :: rest ∧ e.IsReset) ∨
    (s.fault = false ∧ ∃ k rest, s.hostIn = .command (encode (.loadkey k)) :: rest ∧
      t.regs = some ⟨k, (ks T k).1, (ks T k).2⟩)

/-- `10_state.md` rule R21, D22: KEY is read by nothing. Two machines that differ only in KEY give the same responses, the
same STATUS and the same subkeys after any number of steps. -/
def Obligations.MasterKeyRegisterIsNeverRead : Prop :=
  ∀ (T : Tables) (n : Nat) (s t : State) (r : KeyRegs) (other : Key), s.regs = some r → runWith T n s = .next t →
    ∃ t', runWith T n { s with regs := some { r with key := other } } = .next t' ∧
      t'.responses = t.responses ∧ t'.status = t.status ∧ t'.hostIn = t.hostIn ∧
      t'.regs.map (fun q => (q.k1, q.k2)) = t.regs.map (fun q => (q.k1, q.k2))

/-! ## Faults -/

/-- `60_exceptions.md` rule R184: taking a fault sets `FAULT` and `FCODE`, responds `Fault(c)`, and changes nothing else;
the codes are 1 and 2 (rule R180). -/
def Obligations.FaultEntry : Prop :=
  (∀ (c : FaultKind) (s : State),
    raiseFault c s = { s with faulted := some c, responses := s.responses ++ [.fault c] } ∧
    (raiseFault c s).fault = true ∧ (raiseFault c s).fcode = c.code ∧
    (raiseFault c s).regs = s.regs ∧ (raiseFault c s).kv = s.kv ∧
    (Response.fault c).toRsp.toNat = 0x200 + c.code.toNat) ∧
  FaultKind.noKey.code = 1#2 ∧ FaultKind.illegalCmd.code = 2#2

/-- `10_state.md` rule R24, `30_encoding.md` rule R66, U11 of `93_implementation_defined.md`: in every state, reached or
not, `FAULT = 0` if and only if `FCODE = 0`, and `FCODE` is not 3; the one field of the model says `c` exactly when
`FAULT = 1` and `FCODE` is the code of `c`; and no response whatever has a word that U11 says is
never produced. That the state and the response have no room for them is the model's form (log entry 13). -/
def Obligations.UnusedCodesHaveNoForm : Prop :=
  (∀ s : State, FaultCoded s) ∧
  (∀ (s : State) (c : FaultKind), s.faulted = some c ↔ (s.fault = true ∧ s.fcode = c.code)) ∧
  (∀ r : Response, ResponseProper r)

/-- `60_exceptions.md` rule R183: the order of the checks; an over-wide ENC from reset reports ILLEGAL_CMD; and after a
fault no further one is recorded until a reset. -/
def Obligations.FaultPriority : Prop :=
  (∀ (s : State) (c : FaultKind) (w : Cmd) (rest : List HostEvent), s.hostIn = .command w :: rest →
    s.faulted = some c →
    step s = .next { s with hostIn := rest, responses := s.responses ++ [.fault c] }) ∧
  (∀ (s : State) (w : Cmd) (why : IllegalReason) (rest : List HostEvent), s.hostIn = .command w :: rest →
    s.fault = false → decode w = .illegal why →
    step s = .next { s with hostIn := rest, faulted := some .illegalCmd, responses := s.responses ++ [.fault .illegalCmd] }) ∧
  (∀ (s : State) (w : Cmd) (b : Block) (rest : List HostEvent), s.hostIn = .command w :: rest →
    s.fault = false → s.kv = false → (decode w = .legal (.enc b) ∨ decode w = .legal (.dec b)) →
    step s = .next { s with hostIn := rest, faulted := some .noKey, responses := s.responses ++ [.fault .noKey] }) ∧
  step { State.reset with hostIn := [.command 0x9AA#12] } =
    .next { State.reset with faulted := some .illegalCmd, responses := [.fault .illegalCmd] } ∧
  (∀ s t : State, step s = .next t → s.fault = true → (∀ e rest, s.hostIn = e :: rest → ¬ e.IsReset) →
    t.fault = true ∧ t.fcode = s.fcode)

/-- `60_exceptions.md` rule R185: while `FAULT = 1` every word, legal or not, is answered `Fault(FCODE)` and no state
element changes, for any list of words. -/
def Obligations.FaultedCoreAnswersFaultOnly : Prop :=
  ∀ (s : State) (c : FaultKind) (ws : List Cmd) (rest : List HostEvent), s.faulted = some c →
    s.hostIn = ws.map .command ++ rest →
    runMachine ws.length s = .next { s with
      hostIn := rest, responses := s.responses ++ List.replicate ws.length (.fault c) }

/-! ## Reset -/

/-- `10_state.md` rule R30: the state after reset. `none` is the rule's "holds no value", in the form of rule R31. -/
def Obligations.ResetState : Prop :=
  State.reset.kv = false ∧ State.reset.fault = false ∧ State.reset.fcode = 0#2 ∧ State.reset.status = 0b0000#4 ∧
  State.reset.regs = none ∧ State.reset.faulted = none

/-- `70_reset_and_hazards.md` rule R200: the reset transition from every state puts every element at its reset value and
produces no response; and it is the only way to clear `KV`, `FAULT` or `FCODE`. -/
def Obligations.ResetTransition : Prop :=
  (∀ (s : State) (rest : List HostEvent), s.hostIn = .reset :: rest →
    step s = .next { s with
      regs := State.reset.regs, faulted := State.reset.faulted, hostIn := rest }) ∧
  (∀ s t : State, step s = .next t →
    ((s.kv = true ∧ t.kv = false) ∨ (s.fault = true ∧ t.fault = false) ∨ (s.fcode ≠ 0#2 ∧ t.fcode = 0#2)) →
    ∃ e rest, s.hostIn = e :: rest ∧ e.IsReset)

/-- The model's reading of `70_reset_and_hazards.md` rule R201 (log entry 6, DEDUCED): a command caught by reset is the host
event `resetInFlight w`, which drops the word and steps exactly as a reset alone, whatever the word, with no response. -/
def Obligations.ResetInFlightDropsTheCommand : Prop :=
  ∀ (s : State) (w : Cmd) (rest : List HostEvent),
    step { s with hostIn := .resetInFlight w :: rest } = step { s with hostIn := .reset :: rest } ∧
    ∀ t, step { s with hostIn := .resetInFlight w :: rest } = .next t → t.responses = s.responses

/-- `70_reset_and_hazards.md` rule R203, under every configuration: from any state, a reset, then a LOADKEY, then any list
of LOADKEY, ENC and DEC commands runs without a fault, one response each; an ENC or DEC given first faults with NOKEY. -/
def Obligations.FaultFreeAfterBoot : Prop :=
  (∀ (T : Tables) (s : State) (k : Key) (is : List Instr) (rest : List HostEvent),
    s.hostIn = .reset :: (present (.loadkey k :: is) ++ rest) →
    ∃ t rs, runWith T (is.length + 2) s = .next t ∧ t.fault = false ∧ t.kv = true ∧ t.hostIn = rest ∧
      t.responses = s.responses ++ rs ∧ rs.length = is.length + 1 ∧ ∀ r ∈ rs, r.isFault = false) ∧
  (∀ (T : Tables) (s : State) (b : Block) (i : Instr) (rest : List HostEvent), (i = .enc b ∨ i = .dec b) →
    s.hostIn = .reset :: (present [i] ++ rest) →
    runWith T 2 s = .next { s with
      regs := none, faulted := some .noKey, hostIn := rest, responses := s.responses ++ [.fault .noKey] })

/-! ## Invariants -/

/-- `10_state.md` rules R22, R24, `30_encoding.md` rule R66, under every configuration: every step keeps the invariant. -/
def Obligations.StepKeepsInvariant : Prop :=
  ∀ (T : Tables) (s t : State), Inv T s → stepWith T s = .next t → Inv T t

/-- The reset state has the invariant, under every configuration. -/
def Obligations.ResetHasInvariant : Prop := ∀ T : Tables, Inv T State.reset

/-- In every state reached from reset, whatever the host does, the subkeys are the key schedule of the key (`10_state.md`
rule R22); and the rest of the invariant, which is not rule R22's, holds too (`10_state.md` rule R24, `30_encoding.md` rule
R66, `95_test_vectors.md` section 3.7). -/
def Obligations.ReachableStatesHaveInvariant : Prop :=
  ∀ (T : Tables) (es : List HostEvent) (n : Nat) (t : State),
    runWith T n { State.reset with hostIn := es } = .next t → KeysDerived T t ∧ Inv T t

/-- `95_test_vectors.md` section 3.7: the five STATUS values a state with the invariant can show; `0b0111`, NOKEY with a key
loaded, is not one. -/
def Obligations.StatusValues : Prop :=
  ∀ (T : Tables) (s : State), Inv T s →
    s.status ∈ [0b0000#4, 0b0001#4, 0b0110#4, 0b1010#4, 0b1011#4]

/-- `10_state.md` rule R25: the fields of STATUS. -/
def Obligations.StatusFields : Prop :=
  (∀ s : State, s.status.getLsbD 0 = s.kv ∧ s.status.getLsbD 1 = s.fault ∧ s.status.extractLsb' 2 2 = s.fcode) ∧
  State.reset.status = 0b0000#4

/-! ## Responses -/

/-- `30_encoding.md` rule R66: one response per accepted command, of the kind the rule names, after its writes; and the
layout of the response word, whose kind is never `0b11`. -/
def Obligations.OneResponsePerCommand : Prop :=
  (∀ (s t : State) (w : Cmd) (rest : List HostEvent), s.hostIn = .command w :: rest → step s = .next t →
    ∃ r, t.responses = s.responses ++ [r] ∧
      (r = .ack ↔ s.fault = false ∧ ∃ k, decode w = .legal (.loadkey k)) ∧
      ((∃ b, r = .data b) ↔
        s.fault = false ∧ s.kv = true ∧ ∃ b, decode w = .legal (.enc b) ∨ decode w = .legal (.dec b)) ∧
      ((∃ c, r = .fault c) ↔ t.fault = true) ∧
      (∀ c, r = .fault c → c.code = t.fcode)) ∧
  Response.ack.toRsp = 0x000#10 ∧
  (∀ b, (Response.data b).toRsp.extractLsb' 8 2 = 0b01#2 ∧
    ∀ p, 1 ≤ p → p ≤ 8 → bitAt b p = (Response.data b).toRsp.getLsbD (8 - p)) ∧
  (∀ c, (Response.fault c).toRsp.extractLsb' 8 2 = 0b10#2 ∧
    (Response.fault c).toRsp.extractLsb' 2 6 = 0b000000#6 ∧ (Response.fault c).toRsp.extractLsb' 0 2 = c.code ∧
    (c.code = 1#2 ∨ c.code = 2#2)) ∧
  (∀ r : Response, r.toRsp.extractLsb' 8 2 ≠ 0b11#2)

/-- `45_commands.md` rule R170, `10_state.md` rule R28, under every configuration: a stream of bytes is one response a byte
in order, each byte its own block, the key registers and flags unchanged; and the same for decryption. -/
def Obligations.StreamIsOneBlockPerByte : Prop :=
  ∀ (T : Tables) (s : State) (r : KeyRegs) (bs : List Block) (rest : List HostEvent),
    s.fault = false → s.regs = some r →
    runWith T bs.length { s with hostIn := present (bs.map .enc) ++ rest } =
      .next { s with hostIn := rest, responses := s.responses ++ bs.map (fun b => .data (encrypt T r.k1 r.k2 b)) } ∧
    runWith T bs.length { s with hostIn := present (bs.map .dec) ++ rest } =
      .next { s with hostIn := rest, responses := s.responses ++ bs.map (fun b => .data (decrypt T r.k1 r.k2 b)) }

/-! ## The cipher -/

/-- `44_feistel_core.md` rule R148, the round trip, for every configuration, key and block, both ways. -/
def Obligations.RoundTrip : Prop :=
  ∀ (T : Tables) (key : Key) (P : Block),
    decryptUnder T key (encryptUnder T key P) = P ∧ encryptUnder T key (decryptUnder T key P) = P

/-- `44_feistel_core.md` rule R148 as the host sees it, under every configuration: LOADKEY k, ENC b gives a block c, and in
any state of a core that is not faulted and holds those key registers, DEC c gives b back. -/
def Obligations.RoundTripThroughCommands : Prop :=
  ∀ (T : Tables) (s : State) (k : Key) (b : Block) (rest : List HostEvent), s.fault = false →
    s.hostIn = present [.loadkey k, .enc b] ++ rest →
    ∃ c, runWith T 2 s = .next { s with
        regs := some ⟨k, (ks T k).1, (ks T k).2⟩, hostIn := rest, responses := s.responses ++ [.ack, .data c] } ∧
      ∀ (u : State) (more : List HostEvent), u.fault = false → u.regs = some ⟨k, (ks T k).1, (ks T k).2⟩ →
        u.hostIn = present [.dec c] ++ more →
        stepWith T u = .next { u with hostIn := more, responses := u.responses ++ [.data b] }

/-- `44_feistel_core.md` rule R150: for a fixed key, encryption is a bijection of the blocks and decryption its inverse. -/
def Obligations.EncryptionIsABijection : Prop :=
  ∀ (T : Tables) (key : Key),
    Function.Bijective (encryptUnder T key) ∧ Function.Bijective (decryptUnder T key) ∧
    Function.LeftInverse (decryptUnder T key) (encryptUnder T key) ∧
    Function.RightInverse (decryptUnder T key) (encryptUnder T key)

/-- `44_feistel_core.md` rule R151: with equal subkeys the two transforms are one involution; with `TABLES_STD` the keys
with equal subkeys are exactly eight. -/
def Obligations.EqualSubkeysGiveAnInvolution : Prop :=
  (∀ (T : Tables) (x : Subkey) (b : Block),
    encrypt T x x b = decrypt T x x b ∧ encrypt T x x (encrypt T x x b) = b) ∧
  (∀ key : Key, (ks tablesStd key).1 = (ks tablesStd key).2 ↔
    key ∈ [0b0000000000#10, 0b0001100000#10, 0b0110001000#10, 0b0111101000#10,
      0b1000010111#10, 0b1001110111#10, 0b1110011111#10, 0b1111111111#10])

/-- `44_feistel_core.md` rules R140 to R144: the network stage by stage, with the worked example of rule R140. -/
def Obligations.FeistelStages : Prop :=
  (∀ (T : Tables) (b : Block) (ska skb : Subkey), ∃ L0 R0 L1 R1 L2 R2 : Half,
    (L0 ++ R0 : BitVec (4 + 4)) = ip T b ∧
    L1 = R0 ∧ R1 = L0 ^^^ roundF T R0 ska ∧
    L2 = L1 ^^^ roundF T R1 skb ∧ R2 = R1 ∧
    feistel T b ska skb = ipinv T (L2 ++ R2 : BitVec (4 + 4))) ∧
  ip tablesStd 0b10101010#8 = 0b00110011#8 ∧
  roundF tablesStd 0b0011#4 0b10100100#8 = 0b0101#4 ∧
  roundF tablesStd 0b0110#4 0b01000011#8 = 0b0110#4 ∧
  ipinv tablesStd 0b01010110#8 = 0b10001101#8 ∧
  feistel tablesStd 0b10101010#8 0b10100100#8 0b01000011#8 = 0b10001101#8

/-- `95_test_vectors.md` section 3.6: the twelve encryption traces and the decryption values, under `TABLES_STD`. -/
def Obligations.CipherTraces : Prop :=
  encryptUnder tablesStd 0b1010000010#10 0xAA#8 = 0x8D#8 ∧
  encryptUnder tablesStd 0b1010000010#10 0x41#8 = 0x15#8 ∧
  encryptUnder tablesStd 0b1010000010#10 0x72#8 = 0x77#8 ∧
  encryptUnder tablesStd 0b1010000010#10 0x00#8 = 0xCE#8 ∧
  encryptUnder tablesStd 0b1010000010#10 0xFF#8 = 0x2A#8 ∧
  encryptUnder tablesStd 0b0000000000#10 0x00#8 = 0xF0#8 ∧
  encryptUnder tablesStd 0b0000000000#10 0xFF#8 = 0x14#8 ∧
  encryptUnder tablesStd 0b1111111111#10 0x00#8 = 0xEB#8 ∧
  encryptUnder tablesStd 0b1111111111#10 0xFF#8 = 0x0F#8 ∧
  encryptUnder tablesStd 0b0111111101#10 0xA5#8 = 0x06#8 ∧
  encryptUnder tablesStd 0b1100011110#10 0x28#8 = 0x8A#8 ∧
  encryptUnder tablesStd 0b0010010111#10 0x36#8 = 0x5A#8 ∧
  decryptUnder tablesStd 0b1010000010#10 0x8D#8 = 0xAA#8 ∧
  decryptUnder tablesStd 0b1010000010#10 0x00#8 = 0xB6#8 ∧
  decryptUnder tablesStd 0b1010000010#10 0xFF#8 = 0x6A#8 ∧
  decryptUnder tablesStd 0b1010000010#10 0xAA#8 = 0x59#8

/-! ## The data path -/

/-- `40_permutation_engine.md` rule R80: PERM is a gather, for any table and any widths, with the rule's example. -/
def Obligations.PermIsAGather : Prop :=
  (∀ (t : List Nat) (win wout : Nat) (v : BitVec win) (i : Nat), 1 ≤ i → i ≤ wout →
    bitAt (perm t win wout v) i = bitAt v (t.getD (i - 1) 0)) ∧
  perm [2, 4, 3, 1] 4 4 0b1000#4 = 0b0001#4

/-- `40_permutation_engine.md` rule R90: PERM in integer form, for a table whose entries are in `1..W_in`. -/
def Obligations.PermIntegerForm : Prop :=
  ∀ (t : List Nat) (win wout : Nat) (v : BitVec win), permTableOk win wout t = true →
    (perm t win wout v).toNat =
      ((List.range wout).map (fun i => (((v.toNat >>> (win - t.getD i 0)) &&& 1) <<< (wout - (i + 1))))).sum

/-- `40_permutation_engine.md` rule R91: the laws of PERM for every well-formed table: linear over exclusive-or, all-ones to
all-ones, a bijection that keeps the number of 1 bits when the table lists every position once, and one-hot inputs. -/
def Obligations.PermLaws : Prop :=
  (∀ (t : List Nat) (win wout : Nat), permTableOk win wout t = true →
    (∀ a b : BitVec win, perm t win wout (a ^^^ b) = perm t win wout a ^^^ perm t win wout b) ∧
    perm t win wout 0#win = 0#wout ∧
    perm t win wout (BitVec.allOnes win) = BitVec.allOnes wout ∧
    (∀ (v : BitVec win) (q : Nat), 1 ≤ q → q ≤ win →
      (∀ p, 1 ≤ p → p ≤ win → bitAt v p = decide (p = q)) →
      ∀ i, 1 ≤ i → i ≤ wout → bitAt (perm t win wout v) i = decide (t.getD (i - 1) 0 = q))) ∧
  (∀ (t : List Nat) (w : Nat), permTableOk w w t = true → listsAllPositions w t = true →
    Function.Bijective (perm t w w) ∧ ∀ v : BitVec w, ones (perm t w w v) = ones v)

/-- `40_permutation_engine.md` rules R83 to R88: the six instances at all zeros and all ones, for every configuration; the
examples of the rules, the positions P8 drops and the shape of EP under `TABLES_STD`. -/
def Obligations.PermutationInstances : Prop :=
  (∀ T : Tables,
    p10 T 0#10 = 0#10 ∧ p8 T 0#10 = 0#8 ∧ ip T 0#8 = 0#8 ∧ ipinv T 0#8 = 0#8 ∧ ep T 0#4 = 0#8 ∧ p4 T 0#4 = 0#4 ∧
    p10 T 0b1111111111#10 = 0b1111111111#10 ∧ p8 T 0b1111111111#10 = 0b11111111#8 ∧
    ip T 0b11111111#8 = 0b11111111#8 ∧ ipinv T 0b11111111#8 = 0b11111111#8 ∧
    ep T 0b1111#4 = 0b11111111#8 ∧ p4 T 0b1111#4 = 0b1111#4) ∧
  p10 tablesStd 0b1010000010#10 = 0b1000001100#10 ∧
  p8 tablesStd 0b0000111000#10 = 0b10100100#8 ∧ p8 tablesStd 0b1100000000#10 = 0b00000000#8 ∧
  ip tablesStd 0b10101010#8 = 0b00110011#8 ∧ ipinv tablesStd 0b01010110#8 = 0b10001101#8 ∧
  ep tablesStd 0b1010#4 = 0b01010101#8 ∧ p4 tablesStd 0b1001#4 = 0b0101#4 ∧
  (∀ r r' : Half, ep tablesStd r = ep tablesStd r' → r = r') ∧ (∀ r : Half, ones (ep tablesStd r) % 2 = 0)

/-- `40_permutation_engine.md` rule R89, for every configuration: IP lists every position once, IPINV is its exact
positional inverse, so the two undo each other on every block. -/
def Obligations.IpinvInvertsIp : Prop :=
  ∀ T : Tables,
    (∀ p, 1 ≤ p → p ≤ 8 → T.data.ip.count p = 1) ∧
    (∀ i, 1 ≤ i → i ≤ 8 → T.data.ipinv.getD (T.data.ip.getD (i - 1) 0 - 1) 0 = i ∧
      T.data.ip.getD (T.data.ipinv.getD (i - 1) 0 - 1) 0 = i) ∧
    ∀ b : Block, ipinv T (ip T b) = b ∧ ip T (ipinv T b) = b

/-- `42_key_scheduler.md` rule R111: ROTL5 by position and in integer form for the amounts that occur, its corner cases and
its examples. -/
def Obligations.RotationOfAHalf : Prop :=
  (∀ (h : KeyHalf) (n i : Nat), 1 ≤ i → i ≤ 5 → bitAt (rotl5 h n) i = bitAt h ((i - 1 + n) % 5 + 1)) ∧
  (∀ (h : KeyHalf) (n : Nat), (n = 1 ∨ n = 2) →
    (rotl5 h n).toNat = ((h.toNat <<< n) ||| (h.toNat >>> (5 - n))) &&& 0x1F) ∧
  (∀ n, rotl5 0b00000#5 n = 0b00000#5 ∧ rotl5 0b11111#5 n = 0b11111#5) ∧
  (∀ h : KeyHalf, rotl5 (rotl5 (rotl5 (rotl5 (rotl5 h 1) 1) 1) 1) 1 = h ∧ rotl5 (rotl5 h 1) 2 = rotl5 h 3) ∧
  rotl5 0b10000#5 1 = 0b00001#5 ∧ rotl5 0b11000#5 1 = 0b10001#5 ∧ rotl5 0b11000#5 2 = 0b00011#5

/-- `42_key_scheduler.md` rule R112: LS rotates each half by itself, so a bit never leaves its half; the rule's corner cases
and examples. -/
def Obligations.HalvesRotateIndependently : Prop :=
  (∀ (s : Key) (n i : Nat), 1 ≤ i → i ≤ 5 →
    bitAt (ls s n) i = bitAt s ((i - 1 + n) % 5 + 1) ∧ bitAt (ls s n) (i + 5) = bitAt s ((i - 1 + n) % 5 + 6)) ∧
  ls 0b1000000000#10 1 = 0b0000100000#10 ∧ ls 0b0000010000#10 1 = 0b0000000001#10 ∧
  ls 0b1000001100#10 1 = 0b0000111000#10 ∧ ls 0b0000111000#10 2 = 0b0010000011#10

/-- `42_key_scheduler.md` rule R113: the key schedule step by step, for every configuration, and its worked example. -/
def Obligations.KeyScheduleSteps : Prop :=
  (∀ (T : Tables) (key : Key), ∃ s A B : Key,
    s = p10 T key ∧ A = ls s 1 ∧ B = ls A 2 ∧ ks T key = (p8 T A, p8 T B)) ∧
  p10 tablesStd 0b1010000010#10 = 0b1000001100#10 ∧
  stateA tablesStd 0b1010000010#10 = 0b0000111000#10 ∧
  stateB tablesStd 0b1010000010#10 = 0b0010000011#10 ∧
  ks tablesStd 0b1010000010#10 = (0b10100100#8, 0b01000011#8) ∧
  ks tablesStd 0#10 = (0#8, 0#8) ∧ ks tablesStd 0x3FF#10 = (0xFF#8, 0xFF#8)

/-- `42_key_scheduler.md` rule R115: state B is the P10 state with each half rotated by 3 in all, for every configuration;
rotating by 2 in all gives the wrong K2 of the rule. -/
def Obligations.StateBIsRotatedByThree : Prop :=
  (∀ (T : Tables) (key : Key), stateB T key = ls (ls (p10 T key) 1) 2 ∧
    stateB T key = (rotl5 (slice (p10 T key) 1 5) 3 ++ rotl5 (slice (p10 T key) 6 5) 3 : BitVec (5 + 5))) ∧
  p8 tablesStd (ls (p10 tablesStd 0b1010000010#10) 2) = 0b10010010#8 ∧
  (ks tablesStd 0b1010000010#10).2 = 0b01000011#8

/-- `42_key_scheduler.md` rule R116: with `TABLES_STD` the 1024 keys give 1024 distinct subkey pairs. -/
def Obligations.KeyScheduleIsInjective : Prop :=
  ∀ k k' : Key, ks tablesStd k = ks tablesStd k' → k = k'

/-- `41_sbox.md` rules R101 to R104: the box lookups for every configuration, with the row and column in integer form, both
in `0..3`, and the entry's value as the output's. -/
def Obligations.BoxLookups : Prop :=
  (∀ n : Half, rowOf n = 2 * (bitAt n 1).toNat + (bitAt n 4).toNat ∧
    colOf n = 2 * (bitAt n 2).toNat + (bitAt n 3).toNat ∧
    rowOf n = ((n.toNat >>> 3) &&& 1) * 2 + (n.toNat &&& 1) ∧ colOf n = (n.toNat >>> 1) &&& 3 ∧
    rowOf n ≤ 3 ∧ colOf n ≤ 3) ∧
  (∀ (T : Tables) (n : Half),
    (s0 T n).toNat = (T.data.s0.getD (rowOf n) []).getD (colOf n) 0 ∧
    (s1 T n).toNat = (T.data.s1.getD (rowOf n) []).getD (colOf n) 0)

/-- `41_sbox.md` rule R106, `95_test_vectors.md` section 3.2: the boxes of `TABLES_STD` as functions of the 4-bit input. -/
def Obligations.StandardBoxesAsFunctions : Prop :=
  (List.range 16).map (fun n => (s0 tablesStd (BitVec.ofNat 4 n)).toNat) =
    [1, 3, 0, 2, 3, 1, 2, 0, 0, 3, 2, 1, 1, 3, 3, 2] ∧
  (List.range 16).map (fun n => (s1 tablesStd (BitVec.ofNat 4 n)).toNat) =
    [0, 2, 1, 0, 2, 1, 3, 3, 3, 2, 0, 1, 1, 0, 0, 3]

/-- `41_sbox.md` rule R105: the two lookups are independent: S0's output depends on the first half of the mixed expansion
alone and S1's on the second alone, for every configuration; S0's output is the high part. -/
def Obligations.BoxLookupsAreIndependent : Prop :=
  ∀ (T : Tables) (x x' : Block),
    (slice x 1 4 = slice x' 1 4 → slice (substituted T x) 1 2 = slice (substituted T x') 1 2) ∧
    (slice x 5 4 = slice x' 5 4 → slice (substituted T x) 3 2 = slice (substituted T x') 3 2) ∧
    slice (substituted T x) 1 2 = s0 T (slice x 1 4) ∧ slice (substituted T x) 3 2 = s1 T (slice x 5 4)

/-- `43_round_function.md` rules R126 to R132: F as the composition of its six steps, for every configuration, with the
values of the halves and of the concatenation, and the corner cases and worked example of rule R132 under `TABLES_STD`. -/
def Obligations.RoundFunctionSteps : Prop :=
  (∀ (T : Tables) (R : Half) (SK : Subkey), ∃ (e x : Block) (xh xl : Half) (a b : BoxOut) (y : Half),
    e = ep T R ∧ x = e ^^^ SK ∧ (∀ p, 1 ≤ p → p ≤ 8 → bitAt x p = (bitAt e p).xor (bitAt SK p)) ∧
    xh.toNat = x.toNat >>> 4 ∧ xl.toNat = x.toNat &&& 0xF ∧
    a = s0 T xh ∧ b = s1 T xl ∧ y.toNat = 4 * a.toNat + b.toNat ∧
    roundF T R SK = p4 T y) ∧
  roundF tablesStd 0b0000#4 0b00000000#8 = 0b1000#4 ∧ roundF tablesStd 0b1111#4 0b11111111#8 = 0b1000#4 ∧
  roundF tablesStd 0b0000#4 0b11111111#8 = 0b0111#4 ∧ roundF tablesStd 0b1111#4 0b00000000#8 = 0b0111#4 ∧
  roundF tablesStd 0b0010#4 0b10100100#8 = 0b1000#4 ∧ roundF tablesStd 0b0101#4 0b10100100#8 = 0b1000#4 ∧
  roundF tablesStd 0b1100#4 0b10100100#8 = 0b1000#4 ∧
  ep tablesStd 0b0011#4 = 0b10010110#8 ∧ mixed tablesStd 0b0011#4 0b10100100#8 = 0b00110010#8 ∧
  s0 tablesStd 0b0011#4 = 0b10#2 ∧ s1 tablesStd 0b0010#4 = 0b01#2 ∧ p4 tablesStd 0b1001#4 = 0b0101#4 ∧
  roundF tablesStd 0b0011#4 0b10100100#8 = 0b0101#4
end

