-- ==== Sys2Proof/Laws/Bits.lean ====
section
/-! SUPPORT. Bits by position: what `build`, `slice` and concatenation do to a position. -/

namespace Sys2Proof.Machine

/-- Two vectors with the same bit at every position are equal. -/
theorem eq_of_bitAt_eq {w : Nat} {u v : BitVec w} (h : ∀ p, 1 ≤ p → p ≤ w → bitAt u p = bitAt v p) : u = v := by
  apply BitVec.eq_of_getLsbD_eq
  intro i hi
  have hp := h (w - i) (by omega) (by omega)
  simp only [bitAt] at hp
  rwa [show w - (w - i) = i by omega] at hp

/-- `build w f` has `f p` at position `p`. -/
theorem bitAt_build (w : Nat) (f : Nat → Bool) (p : Nat) (h1 : 1 ≤ p) (hw : p ≤ w) : bitAt (build w f) p = f p := by
  induction w with
  | zero => omega
  | succ w ih =>
    unfold bitAt build
    rcases Nat.lt_or_ge w p with hlt | hle
    · obtain rfl : p = w + 1 := by omega
      simp
    · rw [BitVec.getLsbD_concat, if_neg (by omega), show w + 1 - p - 1 = w - p by omega]
      exact ih hle

/-- Position `i` of `v{p .. p+n−1}` is position `p + i − 1` of `v`. -/
theorem bitAt_slice {w : Nat} (v : BitVec w) (p n i : Nat) (hp : 1 ≤ p) (hn : p + n ≤ w + 1) (h1 : 1 ≤ i)
    (hi : i ≤ n) : bitAt (slice v p n) i = bitAt v (p + i - 1) := by
  simp only [bitAt, slice, BitVec.getLsbD_extractLsb']
  rw [decide_eq_true (by omega), Bool.true_and]
  congr 1
  omega

/-- A position of `a || b`: the first `m` are `a`'s, the others `b`'s (`00_scope.md` rule R11). -/
theorem bitAt_append {m n : Nat} (a : BitVec m) (b : BitVec n) (p : Nat) (h2 : p ≤ m + n) :
    bitAt (a ++ b) p = if p ≤ m then bitAt a p else bitAt b (p - m) := by
  simp only [bitAt, BitVec.getLsbD_append]
  split
  · rw [if_neg (by omega)]
    congr 1
    omega
  · rw [if_pos (by omega)]
    congr 1
    omega

/-- The left half of a joined block. -/
theorem slice_append_left (a b : Half) : slice (a ++ b : BitVec (4 + 4)) 1 4 = a := by
  apply eq_of_bitAt_eq
  intro p h1 h2
  rw [bitAt_slice _ _ _ _ (by omega) (by omega) h1 h2, bitAt_append _ _ _ (by omega), if_pos (by omega)]
  congr 1
  omega

/-- The right half of a joined block. -/
theorem slice_append_right (a b : Half) : slice (a ++ b : BitVec (4 + 4)) 5 4 = b := by
  apply eq_of_bitAt_eq
  intro p h1 h2
  rw [bitAt_slice _ _ _ _ (by omega) (by omega) h1 h2, bitAt_append _ _ _ (by omega), if_neg (by omega)]
  congr 1
  omega

/-- A block is its two halves joined. -/
theorem append_slices (v : Block) : (slice v 1 4 ++ slice v 5 4 : BitVec (4 + 4)) = v := by
  apply eq_of_bitAt_eq
  intro p h1 h2
  rw [bitAt_append _ _ _ h2]
  split
  · rw [bitAt_slice _ _ _ _ (by omega) (by omega) h1 (by omega)]
    congr 1
    omega
  · rw [bitAt_slice _ _ _ _ (by omega) (by omega) (by omega) (by omega)]
    congr 1
    omega

end Sys2Proof.Machine
end

