-- ==== Sys2Proof/Laws/Decode.lean ====
section
/-! SUPPORT. The encoder and the decoder's fields, wire by wire. -/

namespace Sys2Proof

theorem encode_loadkey_wire (k : Key) (i : Nat) :
    (encode (.loadkey k)).getLsbD i = if i < 10 then k.getLsbD i else (0b01#2).getLsbD (i - 10) :=
  BitVec.getLsbD_append

theorem encode_enc_wire (b : Block) (i : Nat) :
    (encode (.enc b)).getLsbD i = if i < 8 then b.getLsbD i else (0b1000#4).getLsbD (i - 8) :=
  BitVec.getLsbD_append

theorem encode_dec_wire (b : Block) (i : Nat) :
    (encode (.dec b)).getLsbD i = if i < 8 then b.getLsbD i else (0b1100#4).getLsbD (i - 8) :=
  BitVec.getLsbD_append

namespace Machine

theorem opField_wire (w : Cmd) (i : Nat) (h : i < 2) : (opField w).getLsbD i = w.getLsbD (10 + i) := by
  simp [opField, h]

theorem aboveBlock_wire (w : Cmd) (i : Nat) (h : i < 2) : (aboveBlock w).getLsbD i = w.getLsbD (8 + i) := by
  simp [aboveBlock, h]

theorem keyOperand_wire (w : Cmd) (i : Nat) (h : i < 10) : (keyOperand w).getLsbD i = w.getLsbD i := by
  simp [keyOperand, h]

theorem blockOperand_wire (w : Cmd) (i : Nat) (h : i < 8) : (blockOperand w).getLsbD i = w.getLsbD i := by
  simp [blockOperand, h]

end Machine

end Sys2Proof
end

