-- ==== Sys2Proof/Laws/State.lean ====
section
/-! SUPPORT. One lemma per field per update of the state, so that no proof unfolds a record update. -/

namespace Sys2Proof.Machine

@[simp] theorem respond_regs (r : Response) (s : State) : (respond r s).regs = s.regs := rfl
@[simp] theorem respond_faulted (r : Response) (s : State) : (respond r s).faulted = s.faulted := rfl
@[simp] theorem respond_hostIn (r : Response) (s : State) : (respond r s).hostIn = s.hostIn := rfl
@[simp] theorem respond_responses (r : Response) (s : State) :
    (respond r s).responses = s.responses ++ [r] := rfl

@[simp] theorem writeKeyRegs_regs (r : KeyRegs) (s : State) : (writeKeyRegs r s).regs = some r := rfl
@[simp] theorem writeKeyRegs_faulted (r : KeyRegs) (s : State) : (writeKeyRegs r s).faulted = s.faulted := rfl
@[simp] theorem writeKeyRegs_hostIn (r : KeyRegs) (s : State) : (writeKeyRegs r s).hostIn = s.hostIn := rfl
@[simp] theorem writeKeyRegs_responses (r : KeyRegs) (s : State) :
    (writeKeyRegs r s).responses = s.responses := rfl

@[simp] theorem raiseFault_regs (c : FaultKind) (s : State) : (raiseFault c s).regs = s.regs := rfl
@[simp] theorem raiseFault_faulted (c : FaultKind) (s : State) : (raiseFault c s).faulted = some c := rfl
@[simp] theorem raiseFault_hostIn (c : FaultKind) (s : State) : (raiseFault c s).hostIn = s.hostIn := rfl
@[simp] theorem raiseFault_responses (c : FaultKind) (s : State) :
    (raiseFault c s).responses = s.responses ++ [.fault c] := rfl

@[simp] theorem answerFaulted_regs (c : FaultKind) (s : State) : (answerFaulted c s).regs = s.regs := rfl
@[simp] theorem answerFaulted_faulted (c : FaultKind) (s : State) : (answerFaulted c s).faulted = s.faulted := rfl
@[simp] theorem answerFaulted_hostIn (c : FaultKind) (s : State) : (answerFaulted c s).hostIn = s.hostIn := rfl
@[simp] theorem answerFaulted_responses (c : FaultKind) (s : State) :
    (answerFaulted c s).responses = s.responses ++ [.fault c] := rfl

@[simp] theorem resetCore_regs (s : State) : (resetCore s).regs = none := rfl
@[simp] theorem resetCore_faulted (s : State) : (resetCore s).faulted = none := rfl
@[simp] theorem resetCore_hostIn (s : State) : (resetCore s).hostIn = s.hostIn := rfl
@[simp] theorem resetCore_responses (s : State) : (resetCore s).responses = s.responses := rfl

@[simp] theorem presentFirst_regs (e : HostEvent) (s : State) : (presentFirst e s).regs = s.regs := rfl
@[simp] theorem presentFirst_faulted (e : HostEvent) (s : State) : (presentFirst e s).faulted = s.faulted := rfl
@[simp] theorem presentFirst_hostIn (e : HostEvent) (s : State) :
    (presentFirst e s).hostIn = e :: s.hostIn := rfl
@[simp] theorem presentFirst_responses (e : HostEvent) (s : State) :
    (presentFirst e s).responses = s.responses := rfl

/-! The views of the flags, by the state of the field they read. -/

theorem fault_of_none {s : State} (h : s.faulted = none) : s.fault = false := by rw [State.fault, h]; rfl
theorem fault_of_some {s : State} {c : FaultKind} (h : s.faulted = some c) : s.fault = true := by
  rw [State.fault, h]; rfl
theorem fcode_of_none {s : State} (h : s.faulted = none) : s.fcode = 0#2 := by simp only [State.fcode, h]
theorem fcode_of_some {s : State} {c : FaultKind} (h : s.faulted = some c) : s.fcode = c.code := by
  simp only [State.fcode, h]
theorem kv_of_none {s : State} (h : s.regs = none) : s.kv = false := by rw [State.kv, h]; rfl
theorem kv_of_some {s : State} {r : KeyRegs} (h : s.regs = some r) : s.kv = true := by rw [State.kv, h]; rfl

/-- `FAULT = 0` is the normal condition. -/
theorem fault_eq_false_iff (s : State) : s.fault = false ↔ s.faulted = none := by
  cases h : s.faulted <;> simp [State.fault, h]

/-- `FAULT = 1` says that some fault has been taken. -/
theorem fault_eq_true_iff (s : State) : s.fault = true ↔ ∃ c, s.faulted = some c := by
  cases h : s.faulted <;> simp [State.fault, h]

end Sys2Proof.Machine
end

