-- ==== Sys2Proof/Laws/Ops.lean ====
section
/-! SUPPORT. What each shared operation can do, said once: provers cite these and do not unfold the operations. -/

namespace Sys2Proof.Machine

theorem unlessFaulted_of_some {s : State} {c : FaultKind} (h : s.faulted = some c) (act : State → State) :
    unlessFaulted s act = answerFaulted c s := by simp [unlessFaulted, h]

theorem unlessFaulted_of_none {s : State} (h : s.faulted = none) (act : State → State) :
    unlessFaulted s act = act s := by simp [unlessFaulted, h]

theorem withSubkeys_of_none {s : State} (h : s.regs = none) (act : Subkey → Subkey → State → State) :
    withSubkeys s act = raiseFault .noKey s := by simp [withSubkeys, h]

theorem withSubkeys_of_some {s : State} {r : KeyRegs} (h : s.regs = some r)
    (act : Subkey → Subkey → State → State) :
    withSubkeys s act = act r.k1 r.k2 s := by simp [withSubkeys, h]

theorem accept_legal {w : Cmd} {i : Instr} (h : decode w = .legal i) (run : Instr → State → Result) (s : State) :
    accept run w s = run i s := by simp [accept, h]

theorem accept_illegal {w : Cmd} {why : IllegalReason} (h : decode w = .illegal why)
    (run : Instr → State → Result) (s : State) :
    accept run w s = .next (illegalCommand s) := by simp [accept, h]

theorem takeEvent_idle {s : State} (h : s.hostIn = []) (run : Instr → State → Result) :
    takeEvent run s = .next s := by simp [takeEvent, h]

theorem takeEvent_command {s : State} {w : Cmd} {rest : List HostEvent} (h : s.hostIn = .command w :: rest)
    (run : Instr → State → Result) :
    takeEvent run s = accept run w { s with hostIn := rest } := by simp [takeEvent, h]

theorem takeEvent_reset {s : State} {rest : List HostEvent} (h : s.hostIn = .reset :: rest)
    (run : Instr → State → Result) :
    takeEvent run s = .next (resetCore { s with hostIn := rest }) := by simp [takeEvent, h]

theorem takeEvent_resetInFlight {s : State} {w : Cmd} {rest : List HostEvent}
    (h : s.hostIn = .resetInFlight w :: rest) (run : Instr → State → Result) :
    takeEvent run s = .next (resetCore { s with hostIn := rest }) := by simp [takeEvent, h]

/-- Everything a legal command can do under `T`: answer the faulted condition, load a key, raise NOKEY, or return a
block. -/
theorem execWith_cases (T : Tables) (i : Instr) (s : State) :
    (∃ c, s.faulted = some c ∧ execWith T i s = .next (answerFaulted c s)) ∨
    (s.faulted = none ∧ ∃ k, i = .loadkey k ∧
      execWith T i s = .next (respond .ack (writeKeyRegs ⟨k, (ks T k).1, (ks T k).2⟩ s))) ∨
    (s.faulted = none ∧ s.regs = none ∧ (∃ b, i = .enc b ∨ i = .dec b) ∧
      execWith T i s = .next (raiseFault .noKey s)) ∨
    (s.faulted = none ∧ ∃ r b, s.regs = some r ∧ i = .enc b ∧
      execWith T i s = .next (respond (.data (encrypt T r.k1 r.k2 b)) s)) ∨
    (s.faulted = none ∧ ∃ r b, s.regs = some r ∧ i = .dec b ∧
      execWith T i s = .next (respond (.data (decrypt T r.k1 r.k2 b)) s)) := by
  cases hf : s.faulted with
  | some c =>
    exact .inl ⟨c, rfl, by cases i <;> simp [execWith, loadkeyWith, encWith, decWith, unlessFaulted, hf]⟩
  | none =>
    refine .inr ?_
    cases i with
    | loadkey k => exact .inl ⟨rfl, k, rfl, by simp [execWith, loadkeyWith, unlessFaulted, hf]⟩
    | enc b =>
      refine .inr ?_
      cases hr : s.regs with
      | none => exact .inl ⟨rfl, rfl, ⟨b, .inl rfl⟩, by simp [execWith, encWith, unlessFaulted, withSubkeys, hf, hr]⟩
      | some r =>
        exact .inr (.inl ⟨rfl, r, b, rfl, rfl, by simp [execWith, encWith, unlessFaulted, withSubkeys, hf, hr]⟩)
    | dec b =>
      refine .inr ?_
      cases hr : s.regs with
      | none => exact .inl ⟨rfl, rfl, ⟨b, .inr rfl⟩, by simp [execWith, decWith, unlessFaulted, withSubkeys, hf, hr]⟩
      | some r =>
        exact .inr (.inr ⟨rfl, r, b, rfl, rfl, by simp [execWith, decWith, unlessFaulted, withSubkeys, hf, hr]⟩)

/-- Everything one step can do under `T`. -/
theorem stepWith_cases (T : Tables) (s : State) :
    (s.hostIn = [] ∧ stepWith T s = .next s) ∨
    (∃ w rest i, s.hostIn = .command w :: rest ∧ decode w = .legal i ∧
      stepWith T s = execWith T i { s with hostIn := rest }) ∨
    (∃ w rest why, s.hostIn = .command w :: rest ∧ decode w = .illegal why ∧
      stepWith T s = .next (illegalCommand { s with hostIn := rest })) ∨
    (∃ e rest, s.hostIn = e :: rest ∧ (e = .reset ∨ ∃ w, e = .resetInFlight w) ∧
      stepWith T s = .next (resetCore { s with hostIn := rest })) := by
  unfold stepWith
  rcases hin : s.hostIn with _ | ⟨e, rest⟩
  · exact .inl ⟨rfl, takeEvent_idle hin _⟩
  · cases e with
    | command w =>
      have hstep := takeEvent_command hin (execWith T)
      cases hd : decode w with
      | legal i => exact .inr (.inl ⟨w, rest, i, rfl, hd, by rw [hstep, accept_legal hd]⟩)
      | illegal why => exact .inr (.inr (.inl ⟨w, rest, why, rfl, hd, by rw [hstep, accept_illegal hd]⟩))
    | reset => exact .inr (.inr (.inr ⟨_, rest, rfl, .inl rfl, takeEvent_reset hin _⟩))
    | resetInFlight w => exact .inr (.inr (.inr ⟨_, rest, rfl, .inr ⟨w, rfl⟩, takeEvent_resetInFlight hin _⟩))

/-- A legal command always answers a next state. -/
theorem execWith_next (T : Tables) (i : Instr) (s : State) : ∃ t, execWith T i s = .next t := by
  cases i <;> exact ⟨_, rfl⟩

end Sys2Proof.Machine
end

