-- ==== Sys2Proof/Laws/PerInstr.lean ====
section
/-! SUPPORT. Statements for all commands, one lemma per constructor. -/

namespace Sys2Proof.Laws

/-- A command word against its row, wire by wire: the fixed wires are the row's, the operand's wires are masked out. -/
theorem and_eq_of_wires {w m c : Cmd} (h : ∀ i : Fin 12, (w.getLsbD i && m.getLsbD i) = c.getLsbD i) : w &&& m = c := by
  apply BitVec.eq_of_getLsbD_eq
  intro i hi
  rw [BitVec.getLsbD_and]
  exact h ⟨i, hi⟩

end Sys2Proof.Laws

namespace Sys2Proof.Laws.TableRow

/-- The encoding of a command lies in its own row of the opcode map: `CMD & mask = match` (`30_encoding.md` rule R65). -/
def Statement (i : Instr) : Prop := encode i &&& rowMask i = rowMatch i

theorem loadkey (k : Key) : Statement (.loadkey k) :=
  and_eq_of_wires fun i => by rw [encode_loadkey_wire]; fin_cases i <;> simp [rowMask, rowMatch]

theorem enc (b : Block) : Statement (.enc b) :=
  and_eq_of_wires fun i => by rw [encode_enc_wire]; fin_cases i <;> simp [rowMask, rowMatch]

theorem dec (b : Block) : Statement (.dec b) :=
  and_eq_of_wires fun i => by rw [encode_dec_wire]; fin_cases i <;> simp [rowMask, rowMatch]

end Sys2Proof.Laws.TableRow
end

