-- ==== Sys2Proof/Laws/Run.lean ====
section
/-! SUPPORT. Runs, one step at a time. -/

namespace Sys2Proof

open Machine

/-- One step under `T` always answers a next state: no step of this machine stops. -/
theorem stepWith_next (T : Tables) (s : State) : ∃ t, stepWith T s = .next t := by
  rcases stepWith_cases T s with ⟨_, h⟩ | ⟨_, rest, i, _, _, h⟩ | ⟨_, rest, _, _, _, h⟩ | ⟨_, rest, _, _, h⟩
  · exact ⟨_, h⟩
  · rw [h]
    exact execWith_next T i _
  · exact ⟨_, h⟩
  · exact ⟨_, h⟩

@[simp] theorem present_nil : present [] = [] := rfl

@[simp] theorem present_cons (i : Instr) (is : List Instr) :
    present (i :: is) = .command (encode i) :: present is := rfl

/-- A run of any machine of the host's interface starts with its first step. -/
theorem coreRun_succ {M : Host.Core} {s t : M.State} (h : M.step s = .next t) (n : Nat) :
    M.run (n + 1) s = M.run n t := by simp [Host.Core.run, h]

theorem runWith_zero (T : Tables) (s : State) : runWith T 0 s = .next s := rfl

theorem runWith_succ {T : Tables} {s t : State} (h : stepWith T s = .next t) (n : Nat) :
    runWith T (n + 1) s = runWith T n t := coreRun_succ (M := coreWith T) h n

theorem runMachine_zero (s : State) : runMachine 0 s = .next s := rfl

theorem runMachine_succ {s t : State} (h : step s = .next t) (n : Nat) :
    runMachine (n + 1) s = runMachine n t := coreRun_succ (M := core) h n

/-- A run in two parts, under `T`. -/
theorem runWith_add {T : Tables} {m : Nat} {s t : State} (h : runWith T m s = .next t) (n : Nat) :
    runWith T (m + n) s = runWith T n t := by
  induction m generalizing s with
  | zero =>
    rw [runWith_zero] at h
    cases h
    rw [Nat.zero_add]
  | succ m ih =>
    obtain ⟨u, hu⟩ := stepWith_next T s
    rw [runWith_succ hu] at h
    rw [Nat.succ_add, runWith_succ hu]
    exact ih h

end Sys2Proof
end

