-- ==== Sys2Proof/Tests/Slice0.lean ====
section
/-! SUPPORT. Tests with results from the spec's own tables and examples, a smoke test for each well-formedness check, and
a witness for the hypotheses of every statement. -/

namespace Sys2Proof.Tests

open Machine

/-! ## Small states -/

/-- The key registers after `LOADKEY 1010000010` (`45_commands.md` rule R161, example). -/
def exampleRegs : KeyRegs := ⟨0b1010000010#10, 0b10100100#8, 0b01000011#8⟩

/-- A core with the example key loaded and the host events `es` presented. -/
def keyed (es : List HostEvent) : State := { State.reset with regs := some exampleRegs, hostIn := es }

/-- A core with no key loaded and the host events `es` presented. -/
def unkeyed (es : List HostEvent) : State := { State.reset with hostIn := es }

/-- A core with the example key loaded that has faulted with ILLEGAL_CMD. -/
def faulted (es : List HostEvent) : State := { keyed es with faulted := some .illegalCmd }

/-- The answer `r` is the next state `s`, as a check that decides. -/
def answers (r : Result) (s : State) : Bool :=
  match r with
  | .next t => t == s
  | .fault _ => false
  | .refused _ => false

theorem next_of_answers {r : Result} {s : State} (h : answers r s = true) : r = .next s := by
  cases r with
  | next t => rw [eq_of_beq h]
  | fault _ => exact absurd h Bool.false_ne_true
  | refused _ => exact absurd h Bool.false_ne_true

/-! ## Well-formedness: one ill-formed term for each check, which the check refuses -/

theorem test_wf_standard_tables : tablesStdData.wellFormed = true := by decide

theorem test_wf_refuses_short_table : permTableOk 10 8 [6, 3, 7, 4, 8, 5, 10] = false := by decide

theorem test_wf_refuses_position_zero : permTableOk 4 4 [2, 4, 3, 0] = false := by decide

theorem test_wf_refuses_position_above_win : permTableOk 4 8 [5, 1, 2, 3, 2, 3, 4, 1] = false := by decide

theorem test_wf_refuses_repeated_position : listsAllPositions 4 [2, 4, 3, 2] = false := by decide

theorem test_wf_refuses_wrong_inverse :
    positionallyInverts 8 [1, 4, 3, 5, 7, 2, 8, 6] [2, 6, 3, 1, 4, 8, 5, 7] = false := by decide

theorem test_wf_refuses_box_entry_four : boxOk [[1, 0, 3, 2], [3, 2, 1, 0], [0, 2, 1, 4], [3, 1, 3, 2]] = false := by
  decide

theorem test_wf_refuses_three_box_rows : boxOk [[1, 0, 3, 2], [3, 2, 1, 0], [0, 2, 1, 3]] = false := by decide

theorem test_wf_refuses_short_box_row : boxOk [[1, 0, 3], [3, 2, 1, 0], [0, 2, 1, 3], [3, 1, 3, 2]] = false := by decide

theorem test_wf_refuses_tables_with_bad_inverse :
    ({ tablesStdData with ipinv := [1, 4, 3, 5, 7, 2, 8, 6] } : TableData).wellFormed = false := by decide

theorem test_wf_refuses_tables_with_p10_repeat :
    ({ tablesStdData with p10 := [3, 5, 2, 7, 4, 10, 1, 9, 8, 8] } : TableData).wellFormed = false := by decide

theorem test_wf_refuses_tables_with_bad_p8 :
    ({ tablesStdData with p8 := [6, 3, 7, 4, 8, 5, 11, 9] } : TableData).wellFormed = false := by decide

theorem test_wf_refuses_tables_with_bad_box :
    ({ tablesStdData with s1 := [[0, 1, 2, 3], [2, 0, 1, 3], [3, 0, 1, 0]] } : TableData).wellFormed = false := by decide

theorem test_text_refuses_wrong_length : operandTextOk 8 ['1', '0', '1', '0', '1', '0', '1'] = false := by decide

theorem test_text_refuses_wrong_character :
    operandTextOk 8 ['1', '0', '1', '0', '1', '0', '1', '2'] = false := by decide

/-! ## Decoding: words written out bit by bit from the rows of `30_encoding.md` rule R65 -/

theorem test_decode_loadkey : decode 0b01_1010000010#12 = .legal (.loadkey 0b1010000010#10) := by decide

theorem test_decode_enc : decode 0b10_00_10101010#12 = .legal (.enc 0b10101010#8) := by decide

theorem test_decode_dec : decode 0b11_00_10001101#12 = .legal (.dec 0b10001101#8) := by decide

theorem test_decode_zero_word_is_illegal : decode 0b00_0000000000#12 = .illegal .reservedOp := by decide

theorem test_decode_overwide_enc_is_illegal : decode 0b10_01_10101010#12 = .illegal .overWideBlock := by decide

theorem test_decode_table_word : decodeTableWord 16 0x8AA = some (.enc 0xAA#8) ∧ decodeTableWord 16 0x18AA = none := by
  decide +kernel

theorem test_fetch_word_presents_the_command :
    (State.reset.withFetchWord 16 0x8AA).hostIn = [.command 0x8AA#12] := by decide

/-! ## The data path: `95_test_vectors.md` section 3, the cases that tell misreadings apart (3.8) -/

theorem test_p10_is_a_gather : p10 tablesStd 0b1010000010#10 = 0b1000001100#10 := by decide

theorem test_ls_rotates_each_half : ls 0b1000000000#10 1 = 0b0000100000#10 := by decide

theorem test_box_row_is_outer_bits : s0 tablesStd 0b0001#4 = 0b11#2 ∧ s0 tablesStd 0b1000#4 = 0b00#2 := by decide

theorem test_key_schedule : ks tablesStd 0b1100011110#10 = (0b11101001#8, 0b10100111#8) := by decide

theorem test_encrypt : encryptUnder tablesStd 0b1010000010#10 0b01110010#8 = 0b01110111#8 := by
  decide +kernel

/-! ## The commands: `95_test_vectors.md` section 3.7 and programs P1, P3, P4 -/

theorem test_loadkey_from_reset :
    step (unkeyed [.command 0x682#12]) =
      .next { State.reset with regs := some exampleRegs, responses := [.ack] } :=
  next_of_answers (by decide +kernel)

theorem test_loadkey_in_faulted_core_does_nothing :
    step (faulted [.command 0x71E#12]) = .next { faulted [] with responses := [.fault .illegalCmd] } :=
  next_of_answers (by decide +kernel)

theorem test_enc_with_key : step (keyed [.command 0x8AA#12]) = .next { keyed [] with responses := [.data 0x8D#8] } :=
  next_of_answers (by decide +kernel)

theorem test_enc_without_key_faults :
    step (unkeyed [.command 0x8AA#12]) =
      .next { State.reset with faulted := some .noKey, responses := [.fault .noKey] } :=
  next_of_answers (by decide +kernel)

theorem test_dec_with_key : step (keyed [.command 0xC8D#12]) = .next { keyed [] with responses := [.data 0xAA#8] } :=
  next_of_answers (by decide +kernel)

theorem test_dec_without_key_faults :
    step (unkeyed [.command 0xC00#12]) =
      .next { State.reset with faulted := some .noKey, responses := [.fault .noKey] } :=
  next_of_answers (by decide +kernel)

theorem test_illegal_wins_over_no_key :
    step (unkeyed [.command 0x9AA#12]) =
      .next { State.reset with faulted := some .illegalCmd, responses := [.fault .illegalCmd] } :=
  next_of_answers (by decide +kernel)

theorem test_reset_forgets_the_key : step (faulted [.reset]) = .next State.reset :=
  next_of_answers (by decide +kernel)

theorem test_status_values :
    State.reset.status = 0b0000#4 ∧ (keyed []).status = 0b0001#4 ∧ (faulted []).status = 0b1011#4 := by decide

theorem test_response_words :
    Response.ack.toRsp = 0x000#10 ∧ (Response.data 0x8D#8).toRsp = 0x18D#10 ∧
    (Response.fault .noKey).toRsp = 0x201#10 ∧ (Response.fault .illegalCmd).toRsp = 0x202#10 := by decide

theorem test_assemble_illegal_word :
    assembleLine (wordName ++ ' ' :: ['0', 'x', '9', '2', '1']) = some 0x921#12 := by decide

/-! ## Witnesses: states and operands that meet the hypotheses of the statements, clause by clause -/

/-- DecodeAndEncodeAgree, KeyOperandPlacement: the lowest and the highest LOADKEY word. -/
theorem witness_loadkey_words :
    decode 0x400#12 = .legal (.loadkey 0#10) ∧ decode 0x7FF#12 = .legal (.loadkey 0x3FF#10) := by decide

/-- BlockOperandPlacement: the lowest and the highest ENC and DEC words, and words with an unused wire at 1. -/
theorem witness_block_words :
    decode 0x800#12 = .legal (.enc 0#8) ∧ decode 0x8FF#12 = .legal (.enc 0xFF#8) ∧
    decode 0xC00#12 = .legal (.dec 0#8) ∧ decode 0xCFF#12 = .legal (.dec 0xFF#8) ∧
    ((0x900#12).extractLsb' 10 2 = 0b10#2 ∧ (0x900#12).extractLsb' 8 2 ≠ 0b00#2) ∧
    ((0xFFF#12).extractLsb' 10 2 = 0b11#2 ∧ (0xFFF#12).extractLsb' 8 2 ≠ 0b00#2) := by decide

/-- IllegalWordsRaiseIllegalCmd, FaultPriority (illegal word): with and without a key. -/
theorem witness_illegal_word :
    (unkeyed [.command 0x3FF#12]).hostIn = [.command 0x3FF#12] ∧ (unkeyed [.command 0x3FF#12]).fault = false ∧
    decode 0x3FF#12 = .illegal .reservedOp ∧
    (keyed [.command 0xD00#12]).hostIn = [.command 0xD00#12] ∧ (keyed [.command 0xD00#12]).fault = false ∧
    decode 0xD00#12 = .illegal .overWideBlock := by decide

/-- TextOfCommandsRoundTrips: operands that are no operand text, too short, too long, and with another character. -/
theorem witness_bad_operand_text :
    (' ' ∉ ['1'] ∧ ';' ∉ ['1'] ∧ operandTextOk 10 ['1'] = false ∧ operandTextOk 8 ['1'] = false) ∧
    operandTextOk 8 ['0', '0', '0', '0', '0', '0', '0', '0', '0'] = false ∧
    operandTextOk 10 ['0', '0', '0', '0', '0', '0', '0', '0', '0', 'x'] = false := by decide

/-- StepRunsDecodedCommand. -/
theorem witness_decoded_command :
    (keyed [.command 0x8AA#12, .reset]).hostIn = .command 0x8AA#12 :: [.reset] ∧
    decode 0x8AA#12 = .legal (.enc 0xAA#8) := by decide

/-- IdleCoreKeepsItsState. -/
theorem witness_idle : (keyed []).hostIn = [] := by decide

/-- EventsTakenInOrder: a run over one command. -/
theorem witness_events :
    runWith tablesStd [HostEvent.command 0x8AA#12].length { keyed [] with hostIn := [.command 0x8AA#12] } =
      .next { keyed [] with responses := [.data 0x8D#8] } :=
  next_of_answers (by decide +kernel)

/-- LoadkeyMeaning (first, second and fourth clause), EncMeaning and DecMeaning (first, second and last clause),
RekeyingForgetsTheOldKey, StreamIsOneBlockPerByte. -/
theorem witness_command_states :
    (keyed []).fault = false ∧ (keyed []).regs = some exampleRegs ∧ (unkeyed []).fault = false ∧
    (unkeyed []).kv = false ∧ (faulted []).faulted = some .illegalCmd ∧
    exampleRegs = ⟨0b1010000010#10, 0b10100100#8, 0b01000011#8⟩ := by decide

/-- LoadkeyMeaning (fourth clause): the example registers are the key schedule of the example key. -/
theorem witness_keys_derived (es : List HostEvent) : KeysDerived tables (keyed es) := by
  intro r h
  cases h
  decide

/-- EncMeaning and DecMeaning (third clause): over-wide words in a core that is not faulted. -/
theorem witness_overwide_words :
    (unkeyed [.command 0x9AA#12]).fault = false ∧ (unkeyed [.command 0x9AA#12]).hostIn = [.command 0x9AA#12] ∧
    (0x9AA#12).extractLsb' 10 2 = 0b10#2 ∧ (0x9AA#12).extractLsb' 8 2 ≠ 0b00#2 ∧
    (keyed [.command 0xD8D#12]).fault = false ∧ (keyed [.command 0xD8D#12]).hostIn = [.command 0xD8D#12] ∧
    (0xD8D#12).extractLsb' 10 2 = 0b11#2 ∧ (0xD8D#12).extractLsb' 8 2 ≠ 0b00#2 := by decide

/-- CommandFrame: LOADKEY in a faulted core, ENC with a key, DEC in a faulted core. -/
theorem witness_frame :
    exec (.loadkey 0#10) (faulted []) = .next { faulted [] with responses := [.fault .illegalCmd] } ∧
    exec (.enc 0xAA#8) (keyed []) = .next { keyed [] with responses := [.data 0x8D#8] } ∧ (keyed []).kv = true ∧
    exec (.dec 0xAA#8) (faulted []) = .next { faulted [] with responses := [.fault .illegalCmd] } :=
  ⟨next_of_answers (by decide +kernel), next_of_answers (by decide +kernel), by decide,
    next_of_answers (by decide +kernel)⟩

/-- RekeyingForgetsTheOldKey (third clause): an ENC and a DEC that answer a next state. -/
theorem witness_block_commands :
    execWith tablesStd (.enc 0xAA#8) (keyed []) = .next { keyed [] with responses := [.data 0x8D#8] } ∧
    execWith tablesStd (.dec 0x8D#8) (keyed []) = .next { keyed [] with responses := [.data 0xAA#8] } :=
  ⟨next_of_answers (by decide +kernel), next_of_answers (by decide +kernel)⟩

/-- OnlyLoadkeyWritesKeyRegisters: a step that writes the registers and one that clears them. -/
theorem witness_key_register_steps :
    stepWith tablesStd (unkeyed [.command 0x682#12]) = .next { keyed [] with responses := [.ack] } ∧
    stepWith tablesStd (keyed [.reset]) = .next State.reset :=
  ⟨next_of_answers (by decide +kernel), next_of_answers (by decide +kernel)⟩

/-- MasterKeyRegisterIsNeverRead: a keyed core and a run of one block command. -/
theorem witness_keyed_run :
    (keyed [.command 0x8AA#12]).regs = some exampleRegs ∧
    runWith tablesStd 1 (keyed [.command 0x8AA#12]) = .next { keyed [] with responses := [.data 0x8D#8] } :=
  ⟨by decide, next_of_answers (by decide +kernel)⟩

/-- FaultPriority (first, third and last clause). -/
theorem witness_priority :
    (faulted [.command 0x000#12]).hostIn = [.command 0x000#12] ∧
    (faulted [.command 0x000#12]).faulted = some .illegalCmd ∧
    (unkeyed [.command 0x8AA#12]).hostIn = [.command 0x8AA#12] ∧ (unkeyed [.command 0x8AA#12]).fault = false ∧
    (unkeyed [.command 0x8AA#12]).kv = false ∧ decode 0x8AA#12 = .legal (.enc 0xAA#8) ∧
    decode 0xC00#12 = .legal (.dec 0#8) ∧
    step (faulted [.command 0x682#12]) = .next { faulted [] with responses := [.fault .illegalCmd] } ∧
    (faulted [.command 0x682#12]).fault = true ∧
    (∀ e rest, (faulted [.command 0x682#12]).hostIn = e :: rest → ¬ e.IsReset) := by
  refine ⟨rfl, rfl, rfl, rfl, rfl, by decide, by decide, next_of_answers (by decide +kernel), rfl, ?_⟩
  intro e rest h hr
  cases h
  exact hr

/-- FaultedCoreAnswersFaultOnly: a legal word, an illegal word, and an event after them. -/
theorem witness_faulted_run :
    (faulted [.command 0x682#12, .command 0x000#12, .reset]).faulted = some .illegalCmd ∧
    (faulted [.command 0x682#12, .command 0x000#12, .reset]).hostIn =
      [0x682#12, 0x000#12].map HostEvent.command ++ [.reset] := by decide

/-- ResetTransition: the events, and a reset that clears `KV`, `FAULT` and `FCODE`. -/
theorem witness_reset :
    (faulted [.reset]).hostIn = .reset :: [] ∧ step (faulted [.reset]) = .next State.reset ∧
    (faulted [.reset]).kv = true ∧ State.reset.kv = false ∧ (faulted [.reset]).fault = true ∧
    State.reset.fault = false ∧ (faulted [.reset]).fcode ≠ 0#2 ∧ State.reset.fcode = 0#2 :=
  ⟨by decide, next_of_answers (by decide +kernel), by decide, by decide, by decide, by decide, by decide, by decide⟩

/-- ResetInFlightDropsTheCommand. -/
theorem witness_reset_in_flight :
    step { keyed [] with hostIn := [.resetInFlight 0x8AA#12] } = .next State.reset :=
  next_of_answers (by decide +kernel)

/-- FaultFreeAfterBoot: both clauses. -/
theorem witness_boot :
    (faulted (.reset :: present [.loadkey 0x282#10, .enc 0xAA#8])).hostIn =
      .reset :: (present (.loadkey 0x282#10 :: [.enc 0xAA#8]) ++ []) ∧
    (keyed (.reset :: present [.dec 0#8])).hostIn = .reset :: (present [.dec 0#8] ++ []) := by decide

/-- StepKeepsInvariant, StatusValues: a keyed core has the invariant, and steps. -/
theorem witness_invariant :
    Inv tablesStd (keyed [.command 0x8AA#12]) ∧
    stepWith tablesStd (keyed [.command 0x8AA#12]) = .next { keyed [] with responses := [.data 0x8D#8] } := by
  refine ⟨⟨witness_keys_derived _, ⟨by decide, by decide⟩, ?_, ?_⟩, next_of_answers (by decide +kernel)⟩
  · intro h
    exact absurd h (by decide)
  · intro r hr
    exact absurd hr List.not_mem_nil

/-- ReachableStatesHaveInvariant: a run from reset that loads a key. -/
theorem witness_reachable :
    runWith tablesStd 1 { State.reset with hostIn := [.command 0x682#12] } =
      .next { keyed [] with responses := [.ack] } :=
  next_of_answers (by decide +kernel)

/-- OneResponsePerCommand: a command of each kind of response. -/
theorem witness_responses :
    step (unkeyed [.command 0x682#12]) = .next { keyed [] with responses := [.ack] } ∧
    step (keyed [.command 0x8AA#12]) = .next { keyed [] with responses := [.data 0x8D#8] } ∧
    step (faulted [.command 0x8AA#12]) = .next { faulted [] with responses := [.fault .illegalCmd] } :=
  ⟨next_of_answers (by decide +kernel), next_of_answers (by decide +kernel), next_of_answers (by decide +kernel)⟩

/-- RoundTripThroughCommands: the first core, and one that decrypts. -/
theorem witness_round_trip :
    (unkeyed (present [.loadkey 0x282#10, .enc 0xAA#8])).fault = false ∧
    (unkeyed (present [.loadkey 0x282#10, .enc 0xAA#8])).hostIn = present [.loadkey 0x282#10, .enc 0xAA#8] ++ [] ∧
    (keyed (present [.dec 0x8D#8])).fault = false ∧
    (keyed (present [.dec 0x8D#8])).regs =
      some ⟨0x282#10, (ks tablesStd 0x282#10).1, (ks tablesStd 0x282#10).2⟩ ∧
    (keyed (present [.dec 0x8D#8])).hostIn = present [.dec 0x8D#8] ++ [] := by decide

/-- PermIsAGather, HalvesRotateIndependently, RotationOfAHalf, RoundFunctionSteps, OneResponsePerCommand: the lowest and the
highest position. -/
theorem witness_positions : (1 ≤ 1 ∧ 1 ≤ 5) ∧ (1 ≤ 5 ∧ 5 ≤ 5) ∧ (1 ≤ 8 ∧ 8 ≤ 8) := by decide

/-- PermIntegerForm, PermLaws: well-formed tables that expand, select and permute; a one-hot input. -/
theorem witness_perm_tables :
    permTableOk 4 8 [4, 1, 2, 3, 2, 3, 4, 1] = true ∧ permTableOk 10 8 [6, 3, 7, 4, 8, 5, 10, 9] = true ∧
    permTableOk 4 4 [2, 4, 3, 1] = true ∧ listsAllPositions 4 [2, 4, 3, 1] = true ∧
    bitAt 0b1000#4 1 = true ∧ bitAt 0b1000#4 2 = false ∧ bitAt 0b1000#4 3 = false ∧ bitAt 0b1000#4 4 = false := by
  decide

/-- KeyScheduleIsInjective, PermutationInstances (last clauses): equal inputs have equal outputs. -/
theorem witness_injective :
    ks tablesStd 0x282#10 = ks tablesStd 0x282#10 ∧ ep tablesStd 0b1010#4 = ep tablesStd 0b1010#4 := ⟨rfl, rfl⟩

/-- BoxLookupsAreIndependent: blocks that differ in the other half only. -/
theorem witness_halves :
    (slice 0b00110010#8 1 4 = slice 0b00111111#8 1 4 ∧ (0b00110010#8 : Block) ≠ 0b00111111#8) ∧
    (slice 0b00110010#8 5 4 = slice 0b11110010#8 5 4 ∧ (0b00110010#8 : Block) ≠ 0b11110010#8) := by decide

end Sys2Proof.Tests
end

section
/-! The machine that runs and its family over all configurations: `exec`, `step` and `core` at `Machine.tables`
(`00_scope.md` rule R6, `45_commands.md` rule R160; log entry 8). -/

namespace Sys2Proof

open Machine

/-- The dispatch runs each command with its own meaning, and each meaning is under `Machine.tables`. -/
theorem exec_eq_execWith_tables : exec = execWith tables := by
  funext i s
  cases i with
  | loadkey k => rfl
  | enc b => rfl
  | dec b => rfl

/-- Both steps take the host's next event alike, so they differ in the meaning of the commands alone. -/
theorem step_eq_stepWith_tables : step = stepWith tables :=
  funext fun s => congrArg (takeEvent · s) exec_eq_execWith_tables

theorem core_eq_coreWith_tables : core = coreWith tables :=
  congrArg (Host.Core.mk State Fault Refusal · State.reset) step_eq_stepWith_tables

/-- Settles O9, from the dispatch up: `exec` by its three arms, `step` by `exec`, `core` by `step`. -/
theorem machineRunsUnderTables : Obligations.MachineRunsUnderTables :=
  ⟨fun i s => congrFun₂ exec_eq_execWith_tables i s, congrFun step_eq_stepWith_tables, core_eq_coreWith_tables⟩

end Sys2Proof
end

section
/-! The decoder inverted: a legal word is the encoding of its command (`30_encoding.md` rules R61 to R65). -/

namespace Sys2Proof

open Machine

/-- A wire of the word above the key operand, by the `op` field it belongs to. -/
theorem wire_of_opField {w : Cmd} {v : BitVec 2} (h : opField w = v) {i : Nat} (h1 : 10 ≤ i) (h2 : i < 12) :
    w.getLsbD i = v.getLsbD (i - 10) := by
  rw [← h, opField_wire w _ (by omega), show 10 + (i - 10) = i by omega]

/-- A LOADKEY word is the encoding of its key operand. -/
theorem encode_loadkey_keyOperand {w : Cmd} (h : opField w = 0b01#2) : encode (.loadkey (keyOperand w)) = w := by
  apply BitVec.eq_of_getLsbD_eq
  intro i hi
  rw [encode_loadkey_wire]
  split
  case isTrue hlow => exact keyOperand_wire w i hlow
  case isFalse hhigh => exact (wire_of_opField h (by omega) hi).symm

/-- The words that decode to `LOADKEY k` are its encoding alone. -/
theorem eq_encode_of_decode_loadkey {w : Cmd} {k : Key} (h : decode w = .legal (.loadkey k)) :
    w = encode (.loadkey k) := by
  unfold decode at h
  split_ifs at h with _ hload <;> cases h
  exact (encode_loadkey_keyOperand hload).symm

end Sys2Proof
end

section
/-! What one step can do to the key registers and to the fault condition, said once. -/

namespace Sys2Proof

open Machine

/-- What one step can do to the key registers and the fault condition together, under `T`: keep both; clear both, by a
reset; load a key and its subkeys, by a LOADKEY; or keep the registers and take a fault, NOKEY only with no key
loaded. -/
inductive CoreEffect (T : Tables) (s t : State) : Prop where
  | kept (regs : t.regs = s.regs) (faulted : t.faulted = s.faulted)
  | cleared (regs : t.regs = none) (faulted : t.faulted = none) {e : HostEvent} {rest : List HostEvent}
      (taken : s.hostIn = e :: rest) (isReset : e.IsReset)
  | loaded (normal : s.faulted = none) (faulted : t.faulted = none) {k : Key} {rest : List HostEvent}
      (taken : s.hostIn = .command (encode (.loadkey k)) :: rest)
      (regs : t.regs = some ⟨k, (ks T k).1, (ks T k).2⟩)
  | raised (normal : s.faulted = none) (regs : t.regs = s.regs) {c : FaultKind} (faulted : t.faulted = some c)
      (unkeyed : c = .noKey → s.regs = none)

/-- An illegal word is answered by the fault the core has taken, or raises ILLEGAL_CMD. -/
theorem illegalCommand_cases (s : State) :
    (∃ c, s.faulted = some c ∧ illegalCommand s = answerFaulted c s) ∨
    (s.faulted = none ∧ illegalCommand s = raiseFault .illegalCmd s) := by
  cases hf : s.faulted with
  | some c => exact .inl ⟨c, rfl, unlessFaulted_of_some hf _⟩
  | none => exact .inr ⟨rfl, unlessFaulted_of_none hf _⟩

theorem illegalCommand_effect (T : Tables) (s : State) (rest : List HostEvent) :
    CoreEffect T s (illegalCommand { s with hostIn := rest }) := by
  rcases illegalCommand_cases { s with hostIn := rest } with ⟨c, -, h⟩ | ⟨normal, h⟩ <;> rw [h]
  · exact .kept rfl rfl
  · exact .raised normal rfl rfl nofun

theorem execWith_effect {T : Tables} {s t : State} {w : Cmd} {i : Instr} {rest : List HostEvent}
    (taken : s.hostIn = .command w :: rest) (hdecode : decode w = .legal i)
    (h : execWith T i { s with hostIn := rest } = .next t) : CoreEffect T s t := by
  rcases execWith_cases T i { s with hostIn := rest } with ⟨c, -, hexec⟩ | ⟨hn, k, rfl, hexec⟩ |
    ⟨hn, hregs, -, hexec⟩ | ⟨-, r, b, -, -, hexec⟩ | ⟨-, r, b, -, -, hexec⟩ <;>
    cases hexec.symm.trans h
  · exact .kept rfl rfl
  · rw [eq_encode_of_decode_loadkey hdecode] at taken
    exact .loaded hn hn taken rfl
  · exact .raised hn rfl rfl fun _ => hregs
  · exact .kept rfl rfl
  · exact .kept rfl rfl

/-- Every step has one of the four effects. -/
theorem stepWith_effect {T : Tables} {s t : State} (h : stepWith T s = .next t) : CoreEffect T s t := by
  rcases stepWith_cases T s with ⟨-, hstep⟩ | ⟨w, rest, i, taken, hdecode, hstep⟩ |
    ⟨w, rest, why, -, -, hstep⟩ | ⟨e, rest, taken, hreset, hstep⟩ <;>
    rw [hstep] at h
  · cases h
    exact .kept rfl rfl
  · exact execWith_effect taken hdecode h
  · cases h
    exact illegalCommand_effect T s rest
  · cases h
    refine .cleared rfl rfl taken ?_
    rcases hreset with rfl | ⟨w, rfl⟩ <;> exact trivial

/-- Settles O18, by the four effects of a step. -/
theorem onlyLoadkeyWritesKeyRegisters : Obligations.OnlyLoadkeyWritesKeyRegisters := by
  intro T s t h
  cases stepWith_effect h with
  | kept regs _ => exact .inl regs
  | cleared regs _ taken isReset => exact .inr (.inl ⟨regs, _, _, taken, isReset⟩)
  | loaded normal _ taken regs => exact .inr (.inr ⟨fault_of_none normal, _, _, taken, regs⟩)
  | raised _ regs _ _ => exact .inl regs

end Sys2Proof
end

section
/-! The fault codes, STATUS and the response word, in every state (`10_state.md` rules R24, R25, R30; `30_encoding.md`
rule R66). -/

namespace Sys2Proof

open Machine

theorem faultCode_injective : Function.Injective FaultKind.code := by
  intro c d h
  cases c <;> cases d
  case noKey.noKey | illegalCmd.illegalCmd => rfl
  all_goals exact absurd h (by decide)

theorem faultCode_ne_zero (c : FaultKind) : c.code ≠ 0#2 := by cases c <;> decide

theorem faultCode_ne_three (c : FaultKind) : c.code ≠ 3#2 := by cases c <;> decide

/-- Rule R24, in every state: `FCODE` is 0 in the normal condition and the code of a fault otherwise. -/
theorem faultCoded (s : State) : FaultCoded s := by
  cases hf : s.faulted with
  | none => simp [FaultCoded, fault_of_none hf, fcode_of_none hf]
  | some c => simp [FaultCoded, fault_of_some hf, fcode_of_some hf, faultCode_ne_zero, faultCode_ne_three]

/-- `FCODE` is the code of `c` exactly when `c` is the fault taken. -/
theorem fcode_eq_code_iff (s : State) (c : FaultKind) : s.fcode = c.code ↔ s.faulted = some c := by
  cases hf : s.faulted with
  | none => simp [fcode_of_none hf, (faultCode_ne_zero c).symm]
  | some d => simp [fcode_of_some hf, faultCode_injective.eq_iff]

/-- The kind of a Data response is `0b01`, whatever its block. -/
theorem data_kind (b : Block) : (Response.data b).toRsp.extractLsb' 8 2 = 0b01#2 :=
  BitVec.extractLsb'_append_eq_left

/-- Rule R66 and U11, for every response. -/
theorem responseProper (r : Response) : ResponseProper r := by
  cases r with
  | ack => unfold ResponseProper; decide
  | data b => simp [ResponseProper, data_kind]
  | fault c => cases c <;> (unfold ResponseProper; decide)

/-- Settles O54: the field by its cases, and the three kinds of response. -/
theorem unusedCodesHaveNoForm : Obligations.UnusedCodesHaveNoForm := by
  refine ⟨faultCoded, fun s c => ⟨fun h => ⟨fault_of_some h, fcode_of_some h⟩, ?_⟩, responseProper⟩
  rintro ⟨-, hcode⟩
  exact (fcode_eq_code_iff s c).mp hcode

/-- Bits 3:2 of STATUS. -/
theorem status_fcode (s : State) : s.status.extractLsb' 2 2 = s.fcode := BitVec.extractLsb'_append_eq_left

/-- A wire of STATUS, by the field it belongs to. -/
theorem status_wire (s : State) (i : Nat) :
    s.status.getLsbD i = if i < 2 then (BitVec.ofBool s.fault ++ BitVec.ofBool s.kv).getLsbD i
      else s.fcode.getLsbD (i - 2) :=
  BitVec.getLsbD_append

/-- Bit 1 of STATUS. -/
theorem status_fault (s : State) : s.status.getLsbD 1 = s.fault := by
  rw [status_wire, if_pos (by decide), BitVec.getLsbD_append]
  simp

/-- Bit 0 of STATUS. -/
theorem status_kv (s : State) : s.status.getLsbD 0 = s.kv := by
  rw [status_wire, if_pos (by decide), BitVec.getLsbD_append]
  simp

theorem reset_status : State.reset.status = 0b0000#4 := by decide

/-- Settles O31, field by field. -/
theorem statusFields : Obligations.StatusFields :=
  ⟨fun s => ⟨status_kv s, status_fault s, status_fcode s⟩, reset_status⟩

/-- Settles O23: the flags are views of two fields that reset leaves without a value. -/
theorem resetState : Obligations.ResetState :=
  ⟨kv_of_none rfl, fault_of_none rfl, fcode_of_none rfl, reset_status, rfl, rfl⟩

end Sys2Proof
end

section
/-! The invariant: at reset, over a step, over a run (`10_state.md` rules R22, R24; `30_encoding.md` rule R66). -/

namespace Sys2Proof

open Machine

/-- `NOKEY` recorded only with no key loaded, in terms of the field that holds the fault. -/
theorem noKeyOnlyUnkeyed_iff (s : State) : NoKeyOnlyUnkeyed s ↔ (s.faulted = some .noKey → s.regs = none) := by
  rw [NoKeyOnlyUnkeyed, fcode_eq_code_iff]

/-- What the invariant asks beyond the form of the state: it speaks of the key registers and the fault alone. -/
theorem inv_iff (T : Tables) (s : State) :
    Inv T s ↔ KeysDerived T s ∧ (s.faulted = some .noKey → s.regs = none) := by
  rw [← noKeyOnlyUnkeyed_iff]
  constructor
  · exact fun h => ⟨h.keys, h.unkeyed⟩
  · exact fun ⟨keys, unkeyed⟩ => ⟨keys, faultCoded s, unkeyed, fun r _ => responseProper r⟩

theorem keysDerived_of_none (T : Tables) {s : State} (h : s.regs = none) : KeysDerived T s := by
  simp [KeysDerived, h]

/-- Registers written by a LOADKEY are derived. -/
theorem keysDerived_of_loaded {T : Tables} {s : State} {k : Key}
    (h : s.regs = some ⟨k, (ks T k).1, (ks T k).2⟩) : KeysDerived T s := by
  simp [KeysDerived, h]

theorem keysDerived_of_regs_eq {T : Tables} {s t : State} (h : t.regs = s.regs) (hs : KeysDerived T s) :
    KeysDerived T t := fun r hr => hs r (h ▸ hr)

/-- With no key loaded the invariant holds. -/
theorem inv_of_none (T : Tables) {s : State} (h : s.regs = none) : Inv T s :=
  (inv_iff T s).mpr ⟨keysDerived_of_none T h, fun _ => h⟩

/-- Settles O28: reset leaves no key loaded. -/
theorem resetHasInvariant : Obligations.ResetHasInvariant := fun T => inv_of_none T rfl

/-- Settles O27, by the four effects of a step. -/
theorem stepKeepsInvariant : Obligations.StepKeepsInvariant := by
  intro T s t hs hstep
  rw [inv_iff] at hs ⊢
  obtain ⟨keys, unkeyed⟩ := hs
  cases stepWith_effect hstep with
  | kept regs faulted => exact ⟨keysDerived_of_regs_eq regs keys, by rwa [regs, faulted]⟩
  | cleared regs _ _ _ => exact ⟨keysDerived_of_none T regs, fun _ => regs⟩
  | loaded _ faulted _ regs => exact ⟨keysDerived_of_loaded regs, by simp [faulted]⟩
  | raised _ regs faulted noKey =>
    refine ⟨keysDerived_of_regs_eq regs keys, fun h => ?_⟩
    rw [regs]
    exact noKey (Option.some.inj (faulted.symm.trans h))

/-- What every step keeps, every run keeps. -/
theorem runWith_keeps {T : Tables} {P : State → Prop} (hstep : ∀ s t, P s → stepWith T s = .next t → P t)
    {n : Nat} {s t : State} (hs : P s) (h : runWith T n s = .next t) : P t := by
  induction n generalizing s with
  | zero =>
    cases h
    exact hs
  | succ n ih =>
    obtain ⟨u, hu⟩ := stepWith_next T s
    rw [runWith_succ hu] at h
    exact ih (hstep s u hs hu) h

/-- Settles O29: the invariant holds at reset with any events presented, and every step keeps it. -/
theorem reachableStatesHaveInvariant : Obligations.ReachableStatesHaveInvariant := by
  intro T es n t h
  have hinv : Inv T t := runWith_keeps (stepKeepsInvariant T) (inv_of_none T rfl) h
  exact ⟨hinv.keys, hinv⟩

end Sys2Proof
end

section
/-! The contents of KEY are read by nothing (`10_state.md` rule R21, D22): two states that agree on all but KEY step to
states that agree on all but KEY. -/

namespace Sys2Proof

open Machine

/-- K1 and K2, without a value when no key is loaded. -/
def Machine.State.subkeys (s : State) : Option (Subkey × Subkey) := s.regs.map fun r => (r.k1, r.k2)

/-- The two states agree on everything but the contents of KEY. -/
structure SameButKey (s t : State) : Prop where
  subkeys : t.subkeys = s.subkeys
  faulted : t.faulted = s.faulted
  hostIn : t.hostIn = s.hostIn
  responses : t.responses = s.responses

/-- STATUS is a view of what the two states share. -/
theorem SameButKey.status {s t : State} (h : SameButKey s t) : t.status = s.status := by
  have hkv : t.kv = s.kv := by
    simpa [State.subkeys, State.kv] using congrArg Option.isSome h.subkeys
  simp only [State.status, State.fault, State.fcode, hkv, h.faulted]

/-! One rule per operation. -/

namespace SameButKey

variable {s t : State}

theorem respond (h : SameButKey s t) (r : Response) : SameButKey (respond r s) (respond r t) :=
  ⟨h.subkeys, h.faulted, h.hostIn, by simp [h.responses]⟩

theorem raiseFault (h : SameButKey s t) (c : FaultKind) : SameButKey (raiseFault c s) (raiseFault c t) :=
  ⟨h.subkeys, rfl, h.hostIn, by simp [h.responses]⟩

/-- The same registers written: the two states agree on KEY too. -/
theorem writeKeyRegs (h : SameButKey s t) (r : KeyRegs) : SameButKey (writeKeyRegs r s) (writeKeyRegs r t) :=
  ⟨rfl, h.faulted, h.hostIn, h.responses⟩

theorem resetCore (h : SameButKey s t) : SameButKey (resetCore s) (resetCore t) :=
  ⟨rfl, rfl, h.hostIn, h.responses⟩

theorem setHostIn (h : SameButKey s t) (es : List HostEvent) :
    SameButKey { s with hostIn := es } { t with hostIn := es } :=
  ⟨h.subkeys, h.faulted, rfl, h.responses⟩

theorem unlessFaulted (h : SameButKey s t) {act : State → State} (hact : SameButKey (act s) (act t)) :
    SameButKey (unlessFaulted s act) (unlessFaulted t act) := by
  cases hf : s.faulted with
  | some c =>
    rw [unlessFaulted_of_some hf, unlessFaulted_of_some (h.faulted.trans hf)]
    exact h.respond (.fault c)
  | none => rwa [unlessFaulted_of_none hf, unlessFaulted_of_none (h.faulted.trans hf)]

/-- The key registers side by side: both hold no value, or both hold the same subkeys. -/
theorem regs_cases (h : SameButKey s t) :
    (s.regs = none ∧ t.regs = none) ∨
    ∃ r other, s.regs = some r ∧ t.regs = some { r with key := other } := by
  have hsub := h.subkeys
  unfold State.subkeys at hsub
  cases hs : s.regs with
  | none =>
    rw [hs, Option.map_none, Option.map_eq_none_iff] at hsub
    exact .inl ⟨rfl, hsub⟩
  | some r =>
    rw [hs, Option.map_some, Option.map_eq_some_iff] at hsub
    obtain ⟨q, ht, hq⟩ := hsub
    obtain ⟨hk1, hk2⟩ := Prod.mk.inj hq
    exact .inr ⟨r, q.key, rfl, by rw [ht, ← hk1, ← hk2]⟩

/-- A block command is given K1 and K2 and no KEY. -/
theorem withSubkeys (h : SameButKey s t) {act : Subkey → Subkey → State → State}
    (hact : ∀ k1 k2, SameButKey (act k1 k2 s) (act k1 k2 t)) :
    SameButKey (withSubkeys s act) (withSubkeys t act) := by
  rcases h.regs_cases with ⟨hs, ht⟩ | ⟨r, other, hs, ht⟩
  · rw [withSubkeys_of_none hs, withSubkeys_of_none ht]
    exact h.raiseFault .noKey
  · rw [withSubkeys_of_some hs, withSubkeys_of_some ht]
    exact hact r.k1 r.k2

end SameButKey

/-- Two results that are next states agreeing on all but KEY. -/
def SameButKeyNext (a b : Result) : Prop := ∃ s t, a = .next s ∧ b = .next t ∧ SameButKey s t

namespace SameButKey

variable {s t : State}

theorem next (h : SameButKey s t) : SameButKeyNext (.next s) (.next t) := ⟨s, t, rfl, rfl, h⟩

theorem execWith (h : SameButKey s t) (T : Tables) (i : Instr) :
    SameButKeyNext (execWith T i s) (execWith T i t) := by
  cases i with
  | loadkey k => exact (h.unlessFaulted ((h.writeKeyRegs _).respond .ack)).next
  | enc b => exact (h.unlessFaulted (h.withSubkeys fun _ _ => h.respond _)).next
  | dec b => exact (h.unlessFaulted (h.withSubkeys fun _ _ => h.respond _)).next

theorem accept (h : SameButKey s t) (T : Tables) (w : Cmd) :
    SameButKeyNext (accept (Machine.execWith T) w s) (accept (Machine.execWith T) w t) := by
  cases hdecode : decode w with
  | legal i =>
    rw [accept_legal hdecode, accept_legal hdecode]
    exact h.execWith T i
  | illegal why =>
    rw [accept_illegal hdecode, accept_illegal hdecode]
    exact (h.unlessFaulted (h.raiseFault .illegalCmd)).next

theorem stepWith (h : SameButKey s t) (T : Tables) : SameButKeyNext (stepWith T s) (stepWith T t) := by
  unfold Machine.stepWith
  rcases hs : s.hostIn with _ | ⟨e, rest⟩ <;> have ht := h.hostIn.trans hs
  · rw [takeEvent_idle hs, takeEvent_idle ht]
    exact h.next
  · have htaken := h.setHostIn rest
    cases e with
    | command w =>
      rw [takeEvent_command hs, takeEvent_command ht]
      exact htaken.accept T w
    | reset =>
      rw [takeEvent_reset hs, takeEvent_reset ht]
      exact htaken.resetCore.next
    | resetInFlight w =>
      rw [takeEvent_resetInFlight hs, takeEvent_resetInFlight ht]
      exact htaken.resetCore.next

theorem runWith (h : SameButKey s t) (T : Tables) (n : Nat) :
    SameButKeyNext (runWith T n s) (runWith T n t) := by
  induction n generalizing s t with
  | zero => exact h.next
  | succ n ih =>
    obtain ⟨s', t', hs, ht, h'⟩ := h.stepWith T
    rw [runWith_succ hs, runWith_succ ht]
    exact ih h'

/-- Another key in KEY, all else kept. -/
theorem of_other_key {r : KeyRegs} (other : Key) (hs : s.regs = some r) :
    SameButKey s { s with regs := some { r with key := other } } :=
  ⟨by simp [State.subkeys, hs], rfl, rfl, rfl⟩

end SameButKey

/-- Settles O19: the two runs agree on all but KEY throughout. -/
theorem masterKeyRegisterIsNeverRead : Obligations.MasterKeyRegisterIsNeverRead := by
  intro T n s t r other hs hrun
  obtain ⟨u, t', hu, ht', h⟩ := (SameButKey.of_other_key other hs).runWith T n
  cases hu.symm.trans hrun
  exact ⟨t', ht', h.responses, h.status, h.hostIn, h.subkeys⟩

end Sys2Proof
end

section
/-! The host's events are taken one at a time, in order (`20_memory.md` rule R47, `70_reset_and_hazards.md` rule R205):
what is presented after an event has no part in the step that takes it. -/

namespace Sys2Proof

open Machine

/-- The state with the events `es` presented and no others. -/
def Machine.setHostIn (es : List HostEvent) (s : State) : State := { s with hostIn := es }

/-! Nothing that a command does looks at the events: each operation commutes with presenting others. -/

theorem unlessFaulted_setHostIn {s : State} {act : State → State} {es : List HostEvent}
    (hact : act (setHostIn es s) = setHostIn es (act s)) :
    unlessFaulted (setHostIn es s) act = setHostIn es (unlessFaulted s act) := by
  cases hf : s.faulted with
  | some c =>
    rw [unlessFaulted_of_some hf, unlessFaulted_of_some (s := setHostIn es s) hf]
    rfl
  | none => rwa [unlessFaulted_of_none hf, unlessFaulted_of_none (s := setHostIn es s) hf]

theorem withSubkeys_setHostIn {s : State} {act : Subkey → Subkey → State → State} {es : List HostEvent}
    (hact : ∀ k1 k2, act k1 k2 (setHostIn es s) = setHostIn es (act k1 k2 s)) :
    withSubkeys (setHostIn es s) act = setHostIn es (withSubkeys s act) := by
  cases hr : s.regs with
  | none =>
    rw [withSubkeys_of_none hr, withSubkeys_of_none (s := setHostIn es s) hr]
    rfl
  | some r =>
    rw [withSubkeys_of_some hr, withSubkeys_of_some (s := setHostIn es s) hr]
    exact hact r.k1 r.k2

theorem illegalCommand_setHostIn (es : List HostEvent) (s : State) :
    illegalCommand (setHostIn es s) = setHostIn es (illegalCommand s) := unlessFaulted_setHostIn rfl

theorem loadkeyWith_setHostIn (T : Tables) (k : Key) (es : List HostEvent) (s : State) :
    loadkeyWith T k (setHostIn es s) = setHostIn es (loadkeyWith T k s) := unlessFaulted_setHostIn rfl

theorem encWith_setHostIn (T : Tables) (b : Block) (es : List HostEvent) (s : State) :
    encWith T b (setHostIn es s) = setHostIn es (encWith T b s) :=
  unlessFaulted_setHostIn (withSubkeys_setHostIn fun _ _ => rfl)

theorem decWith_setHostIn (T : Tables) (b : Block) (es : List HostEvent) (s : State) :
    decWith T b (setHostIn es s) = setHostIn es (decWith T b s) :=
  unlessFaulted_setHostIn (withSubkeys_setHostIn fun _ _ => rfl)

/-- A legal command has the same result whatever is presented after it. -/
theorem execWith_setHostIn (T : Tables) (i : Instr) (s : State) :
    ∃ t, ∀ es, execWith T i (setHostIn es s) = .next (setHostIn es t) := by
  cases i with
  | loadkey k => exact ⟨_, fun es => congrArg _ (loadkeyWith_setHostIn T k es s)⟩
  | enc b => exact ⟨_, fun es => congrArg _ (encWith_setHostIn T b es s)⟩
  | dec b => exact ⟨_, fun es => congrArg _ (decWith_setHostIn T b es s)⟩

/-- A command word, legal or not, has the same result whatever is presented after it. -/
theorem accept_setHostIn (T : Tables) (w : Cmd) (s : State) :
    ∃ t, ∀ es, accept (execWith T) w (setHostIn es s) = .next (setHostIn es t) := by
  cases hdecode : decode w with
  | legal i =>
    simp only [accept_legal hdecode]
    exact execWith_setHostIn T i s
  | illegal why =>
    simp only [accept_illegal hdecode]
    exact ⟨_, fun es => congrArg _ (illegalCommand_setHostIn es s)⟩

/-- A step takes the first event alone: its result is the same whatever is presented after it, which it leaves. -/
theorem stepWith_takes_first (T : Tables) (e : HostEvent) (s : State) :
    ∃ t, ∀ rest, stepWith T (setHostIn (e :: rest) s) = .next (setHostIn rest t) := by
  cases e with
  | command w =>
    obtain ⟨t, ht⟩ := accept_setHostIn T w s
    exact ⟨t, fun rest => (takeEvent_command (s := setHostIn (.command w :: rest) s) rfl _).trans (ht rest)⟩
  | reset =>
    exact ⟨resetCore s, fun rest => takeEvent_reset (s := setHostIn (.reset :: rest) s) rfl _⟩
  | resetInFlight w =>
    exact ⟨resetCore s, fun rest => takeEvent_resetInFlight (s := setHostIn (.resetInFlight w :: rest) s) rfl _⟩

/-- A run of one step per event takes those events alone: its result is the same whatever is presented after them, which
it leaves. -/
theorem runWith_takes_all (T : Tables) (es : List HostEvent) (s : State) :
    ∃ t, ∀ rest, runWith T es.length (setHostIn (es ++ rest) s) = .next (setHostIn rest t) := by
  induction es generalizing s with
  | nil => exact ⟨s, fun _ => runWith_zero T _⟩
  | cons e es ih =>
    obtain ⟨u, hu⟩ := stepWith_takes_first T e s
    obtain ⟨t, ht⟩ := ih u
    exact ⟨t, fun rest => (runWith_succ (hu (es ++ rest)) es.length).trans (ht rest)⟩

/-- Settles O12, by the run over the first events with nothing, and then with the others, presented after them. -/
theorem eventsTakenInOrder : Obligations.EventsTakenInOrder := by
  intro T es fs s t h
  obtain ⟨u, hu⟩ := runWith_takes_all T es s
  have halone := hu []
  rw [List.append_nil] at halone
  cases halone.symm.trans h
  exact ⟨rfl, hu fs, runWith_add (hu fs) fs.length⟩

end Sys2Proof
end

section
/-! The frame of the three commands (`20_memory.md` rule R45, `45_commands.md` rules R161 to R163). -/

namespace Sys2Proof

open Machine

/-- What a legal command can write besides its response: nothing, the key registers by LOADKEY, or NOKEY by a block
command with no key loaded. -/
theorem execWith_writes (T : Tables) (i : Instr) (s : State) :
    (∃ r, execWith T i s = .next (respond r s)) ∨
    (s.faulted = none ∧ ∃ k r, i = .loadkey k ∧ execWith T i s = .next (respond .ack (writeKeyRegs r s))) ∨
    (s.faulted = none ∧ s.regs = none ∧ (∃ b, i = .enc b ∨ i = .dec b) ∧
      execWith T i s = .next (raiseFault .noKey s)) := by
  rcases execWith_cases T i s with ⟨c, -, hexec⟩ | ⟨hn, k, hi, hexec⟩ | noKey |
    ⟨-, r, b, -, -, hexec⟩ | ⟨-, r, b, -, -, hexec⟩
  · exact .inl ⟨.fault c, hexec⟩
  · exact .inr (.inl ⟨hn, k, _, hi, hexec⟩)
  · exact .inr (.inr noKey)
  · exact .inl ⟨_, hexec⟩
  · exact .inl ⟨_, hexec⟩

/-- A block command is no LOADKEY. -/
theorem ne_loadkey_of_block {i : Instr} {b : Block} (h : i = .enc b ∨ i = .dec b) (k : Key) : i ≠ .loadkey k := by
  rcases h with rfl | rfl <;> exact nofun

/-- Settles O16, by what a command can write. -/
theorem commandFrame : Obligations.CommandFrame := by
  intro i s t h
  rw [exec_eq_execWith_tables] at h
  rcases execWith_writes tables i s with ⟨r, hexec⟩ | ⟨hn, k, r, hi, hexec⟩ | ⟨hn, hr, ⟨b, hi⟩, hexec⟩ <;>
    cases hexec.symm.trans h
  · exact ⟨rfl, ⟨_, rfl⟩, fun _ _ => ⟨rfl, fun _ => ⟨rfl, rfl⟩⟩, fun _ _ => ⟨rfl, rfl, fun _ => rfl⟩⟩
  · refine ⟨rfl, ⟨_, rfl⟩, fun b hb => absurd hi (ne_loadkey_of_block hb k), fun _ _ => ⟨rfl, rfl, fun hfault => ?_⟩⟩
    simp [fault_of_none hn] at hfault
  · refine ⟨rfl, ⟨_, rfl⟩, fun _ _ => ⟨rfl, fun hset => ?_⟩, fun k hk => absurd hk (ne_loadkey_of_block hi k)⟩
    simp [fault_of_none hn, kv_of_none hr] at hset

end Sys2Proof
end

section
/-! The decoder row by row, and the encoder as its inverse (`30_encoding.md` rules R60 to R65): a word is put together
from its fields, the word of ENC and of DEC alike as `op`, `00` and the block. -/

namespace Sys2Proof

open Machine

/-- The word of a block command (rule R63): the operation code, the two unused wires at 0, the block. -/
def blockWord (op : BitVec 2) (b : Block) : Cmd :=
  ((op ++ 0b00#2 : BitVec (2 + 2)) ++ b : BitVec (4 + 8))

theorem encode_enc (b : Block) : encode (.enc b) = blockWord 0b10#2 b := rfl

theorem encode_dec (b : Block) : encode (.dec b) = blockWord 0b11#2 b := rfl

@[simp] theorem opField_blockWord (op : BitVec 2) (b : Block) : opField (blockWord op b) = op :=
  (BitVec.extractLsb'_append_eq_of_le (by decide)).trans BitVec.extractLsb'_append_eq_left

@[simp] theorem aboveBlock_blockWord (op : BitVec 2) (b : Block) : aboveBlock (blockWord op b) = 0b00#2 :=
  (BitVec.extractLsb'_append_eq_of_le (by decide)).trans BitVec.extractLsb'_append_eq_right

@[simp] theorem blockOperand_blockWord (op : BitVec 2) (b : Block) : blockOperand (blockWord op b) = b :=
  BitVec.extractLsb'_append_eq_right

@[simp] theorem opField_encode_loadkey (k : Key) : opField (encode (.loadkey k)) = 0b01#2 :=
  BitVec.extractLsb'_append_eq_left

@[simp] theorem keyOperand_encode_loadkey (k : Key) : keyOperand (encode (.loadkey k)) = k :=
  BitVec.extractLsb'_append_eq_right

/-- A word whose two wires above the block are 0 is its operation code, `00` and its block operand. -/
theorem blockWord_of_aboveBlock {w : Cmd} (h : aboveBlock w = 0b00#2) : blockWord (opField w) (blockOperand w) = w := by
  have fields : opField w ++ aboveBlock w = w.extractLsb' 8 (2 + 2) :=
    BitVec.extractLsb'_append_extractLsb'_eq_extractLsb' rfl
  have word : w.extractLsb' 8 (2 + 2) ++ blockOperand w = w.extractLsb' 0 (2 + 2 + 8) :=
    BitVec.extractLsb'_append_extractLsb'_eq_extractLsb' rfl
  rw [blockWord, ← h, fields]
  exact word.trans BitVec.extractLsb'_eq_self

/-! What a word decodes to, by its fields. -/

theorem decode_of_reservedOp {w : Cmd} (hop : opField w = 0b00#2) : decode w = .illegal .reservedOp := by
  simp [decode, hop]

theorem decode_of_loadkey {w : Cmd} (hop : opField w = 0b01#2) : decode w = .legal (.loadkey (keyOperand w)) := by
  simp [decode, hop]

theorem decode_of_overWide {w : Cmd} (hop : opField w = 0b10#2 ∨ opField w = 0b11#2) (hwide : aboveBlock w ≠ 0b00#2) :
    decode w = .illegal .overWideBlock := by
  rcases hop with hop | hop <;> simp [decode, hop, hwide]

theorem decode_of_enc {w : Cmd} (hop : opField w = 0b10#2) (hfit : aboveBlock w = 0b00#2) :
    decode w = .legal (.enc (blockOperand w)) := by
  simp [decode, hop, hfit]

theorem decode_of_dec {w : Cmd} (hop : opField w = 0b11#2) (hfit : aboveBlock w = 0b00#2) :
    decode w = .legal (.dec (blockOperand w)) := by
  simp [decode, hop, hfit]

/-- Every word falls under one of the five. -/
theorem decode_cases (w : Cmd) :
    (opField w = 0b00#2 ∧ decode w = .illegal .reservedOp) ∨
    (opField w = 0b01#2 ∧ decode w = .legal (.loadkey (keyOperand w))) ∨
    ((opField w = 0b10#2 ∨ opField w = 0b11#2) ∧ aboveBlock w ≠ 0b00#2 ∧ decode w = .illegal .overWideBlock) ∨
    (opField w = 0b10#2 ∧ aboveBlock w = 0b00#2 ∧ decode w = .legal (.enc (blockOperand w))) ∨
    (opField w = 0b11#2 ∧ aboveBlock w = 0b00#2 ∧ decode w = .legal (.dec (blockOperand w))) := by
  have codes : ∀ op : BitVec 2, op = 0b00#2 ∨ op = 0b01#2 ∨ op = 0b10#2 ∨ op = 0b11#2 := by decide
  rcases codes (opField w) with hop | hop | hop | hop
  · exact .inl ⟨hop, decode_of_reservedOp hop⟩
  · exact .inr (.inl ⟨hop, decode_of_loadkey hop⟩)
  · by_cases hfit : aboveBlock w = 0b00#2
    · exact .inr (.inr (.inr (.inl ⟨hop, hfit, decode_of_enc hop hfit⟩)))
    · exact .inr (.inr (.inl ⟨.inl hop, hfit, decode_of_overWide (.inl hop) hfit⟩))
  · by_cases hfit : aboveBlock w = 0b00#2
    · exact .inr (.inr (.inr (.inr ⟨hop, hfit, decode_of_dec hop hfit⟩)))
    · exact .inr (.inr (.inl ⟨.inr hop, hfit, decode_of_overWide (.inr hop) hfit⟩))

/-- The encoding of a command decodes to it. -/
theorem decode_encode (i : Instr) : decode (encode i) = .legal i := by
  cases i with
  | loadkey k => rw [decode_of_loadkey (opField_encode_loadkey k), keyOperand_encode_loadkey]
  | enc b => rw [encode_enc, decode_of_enc (opField_blockWord _ b) (aboveBlock_blockWord _ b), blockOperand_blockWord]
  | dec b => rw [encode_dec, decode_of_dec (opField_blockWord _ b) (aboveBlock_blockWord _ b), blockOperand_blockWord]

/-- A legal word is the encoding of its command. -/
theorem encode_of_decode {w : Cmd} {i : Instr} (h : decode w = .legal i) : encode i = w := by
  rcases decode_cases w with ⟨-, hd⟩ | ⟨-, hd⟩ | ⟨-, -, hd⟩ | ⟨hop, hfit, hd⟩ | ⟨hop, hfit, hd⟩ <;>
    cases hd.symm.trans h
  · exact (eq_encode_of_decode_loadkey h).symm
  · rw [encode_enc, ← hop, blockWord_of_aboveBlock hfit]
  · rw [encode_dec, ← hop, blockWord_of_aboveBlock hfit]

/-- Settles O1, in both directions. -/
theorem decodeAndEncodeAgree : Obligations.DecodeAndEncodeAgree :=
  ⟨decode_encode, fun _ _ => encode_of_decode⟩

end Sys2Proof
end

section
/-! The operands of the commands, position by position, and the illegal words (`30_encoding.md` rules R62 to R64,
`60_exceptions.md` rule R182). -/

namespace Sys2Proof

open Machine

/-- The value of a LOADKEY word. -/
theorem toNat_encode_loadkey (k : Key) : (encode (.loadkey k)).toNat = 0x400 + k.toNat :=
  (BitVec.toNat_append 0b01#2 k).trans (Nat.shiftLeft_add_eq_or_of_lt k.isLt 1).symm

/-- Settles O3: a LOADKEY word is the encoding of its key, whose wires below 10 are the key's. -/
theorem keyOperandPlacement : Obligations.KeyOperandPlacement := by
  refine ⟨fun w k h => ?_, fun k => ⟨_, decode_encode _⟩⟩
  rw [← encode_of_decode h]
  refine ⟨fun p h1 _ => ?_, toNat_encode_loadkey k⟩
  rw [encode_loadkey_wire, if_pos (by omega), bitAt]

theorem blockWord_wire (op : BitVec 2) (b : Block) (i : Nat) :
    (blockWord op b).getLsbD i = if i < 8 then b.getLsbD i else (op ++ 0b00#2).getLsbD (i - 8) :=
  BitVec.getLsbD_append

/-- The word of a block command: its block, position by position, and its two unused wires. -/
theorem blockWord_placement (op : BitVec 2) (b : Block) :
    (∀ p, 1 ≤ p → p ≤ 8 → bitAt b p = (blockWord op b).getLsbD (8 - p)) ∧
    (blockWord op b).getLsbD 9 = false ∧ (blockWord op b).getLsbD 8 = false := by
  refine ⟨fun p h1 _ => ?_, ?_, ?_⟩
  · rw [blockWord_wire, if_pos (by omega), bitAt]
  · rw [blockWord_wire, if_neg (by decide), BitVec.getLsbD_append]
    rfl
  · rw [blockWord_wire, if_neg (by decide), BitVec.getLsbD_append]
    rfl

/-- Settles O4: an ENC or DEC word is the word of its block. -/
theorem blockOperandPlacement : Obligations.BlockOperandPlacement := by
  refine ⟨fun w b h => ?_, fun b => ⟨⟨_, decode_encode _⟩, ⟨_, decode_encode _⟩⟩,
    fun w hop hwide => ⟨_, decode_of_overWide hop hwide⟩⟩
  rcases h with h | h <;> rw [← encode_of_decode h]
  · exact blockWord_placement 0b10#2 b
  · exact blockWord_placement 0b11#2 b

/-- Rule R64: exactly which words are illegal. -/
theorem decode_illegal_iff (w : Cmd) :
    (∃ why, decode w = .illegal why) ↔
      opField w = 0b00#2 ∨ ((opField w = 0b10#2 ∨ opField w = 0b11#2) ∧ aboveBlock w ≠ 0b00#2) := by
  rcases decode_cases w with ⟨hop, hd⟩ | ⟨hop, hd⟩ | ⟨hop, hwide, hd⟩ | ⟨hop, hfit, hd⟩ | ⟨hop, hfit, hd⟩
  · exact iff_of_true ⟨_, hd⟩ (.inl hop)
  · simp [hd, hop]
  · exact iff_of_true ⟨_, hd⟩ (.inr ⟨hop, hwide⟩)
  · simp [hd, hop, hfit]
  · simp [hd, hop, hfit]

/-- A step that takes a command word accepts it. -/
theorem step_command {s : State} {w : Cmd} {rest : List HostEvent} (taken : s.hostIn = .command w :: rest) :
    step s = accept (execWith tables) w { s with hostIn := rest } := by
  rw [step_eq_stepWith_tables]
  exact takeEvent_command taken _

/-- Settles O5: in the normal condition an illegal word raises ILLEGAL_CMD, whatever the key registers hold. -/
theorem illegalWordsRaiseIllegalCmd : Obligations.IllegalWordsRaiseIllegalCmd := by
  refine ⟨decode_illegal_iff, fun s w rest taken hnormal ⟨why, hdecode⟩ => ?_⟩
  have normal : s.faulted = none := (fault_eq_false_iff s).mp hnormal
  rw [step_command taken, accept_illegal hdecode]
  exact congrArg _ (unlessFaulted_of_none (s := { s with hostIn := rest }) normal _)

end Sys2Proof
end

section
/-! The map of the 4096 command words, by value, by match and mask, and counted (`30_encoding.md` rule R65). -/

namespace Sys2Proof

open Machine

/-! The fields of a word, by its value. -/

theorem opField_eq_iff (w : Cmd) {n : Nat} (hn : n < 4) : opField w = BitVec.ofNat 2 n ↔ w.toNat / 0x400 = n := by
  have value : (opField w).toNat = w.toNat / 0x400 := by
    rw [opField, BitVec.extractLsb'_toNat, Nat.shiftRight_eq_div_pow]
    omega
  rw [← BitVec.toNat_inj, value, BitVec.toNat_ofNat, Nat.mod_eq_of_lt hn]

theorem aboveBlock_eq_iff (w : Cmd) {n : Nat} (hn : n < 4) :
    aboveBlock w = BitVec.ofNat 2 n ↔ w.toNat / 0x100 % 4 = n := by
  have value : (aboveBlock w).toNat = w.toNat / 0x100 % 4 := by
    rw [aboveBlock, BitVec.extractLsb'_toNat, Nat.shiftRight_eq_div_pow]
  rw [← BitVec.toNat_inj, value, BitVec.toNat_ofNat, Nat.mod_eq_of_lt hn]

/-! The rows of the map. -/

theorem decode_row_reserved {w : Cmd} (hi : w.toNat < 0x400) : decode w = .illegal .reservedOp :=
  decode_of_reservedOp ((opField_eq_iff w (by decide)).mpr (by omega))

theorem decode_row_loadkey {w : Cmd} (lo : 0x400 ≤ w.toNat) (hi : w.toNat < 0x800) :
    decode w = .legal (.loadkey (keyOperand w)) :=
  decode_of_loadkey ((opField_eq_iff w (by decide)).mpr (by omega))

theorem decode_row_enc {w : Cmd} (lo : 0x800 ≤ w.toNat) (hi : w.toNat < 0x900) :
    decode w = .legal (.enc (blockOperand w)) :=
  decode_of_enc ((opField_eq_iff w (by decide)).mpr (by omega))
    ((aboveBlock_eq_iff w (by decide)).mpr (by omega))

theorem decode_row_wide_enc {w : Cmd} (lo : 0x900 ≤ w.toNat) (hi : w.toNat < 0xC00) :
    decode w = .illegal .overWideBlock :=
  decode_of_overWide (.inl ((opField_eq_iff w (by decide)).mpr (by omega)))
    ((aboveBlock_eq_iff w (by decide)).not.mpr (by omega))

theorem decode_row_dec {w : Cmd} (lo : 0xC00 ≤ w.toNat) (hi : w.toNat < 0xD00) :
    decode w = .legal (.dec (blockOperand w)) :=
  decode_of_dec ((opField_eq_iff w (by decide)).mpr (by omega))
    ((aboveBlock_eq_iff w (by decide)).mpr (by omega))

theorem decode_row_wide_dec {w : Cmd} (lo : 0xD00 ≤ w.toNat) : decode w = .illegal .overWideBlock :=
  decode_of_overWide (.inr ((opField_eq_iff w (by decide)).mpr (by omega)))
    ((aboveBlock_eq_iff w (by decide)).not.mpr (by omega))

theorem decode_by_value (w : Cmd) : decode w =
    if w.toNat < 0x400 then .illegal .reservedOp
    else if w.toNat < 0x800 then .legal (.loadkey (keyOperand w))
    else if w.toNat < 0x900 then .legal (.enc (blockOperand w))
    else if w.toNat < 0xC00 then .illegal .overWideBlock
    else if w.toNat < 0xD00 then .legal (.dec (blockOperand w))
    else .illegal .overWideBlock := by
  split_ifs with h1 h2 h3 h4 h5
  · exact decode_row_reserved h1
  · exact decode_row_loadkey (Nat.le_of_not_lt h1) h2
  · exact decode_row_enc (Nat.le_of_not_lt h2) h3
  · exact decode_row_wide_enc (Nat.le_of_not_lt h3) h4
  · exact decode_row_dec (Nat.le_of_not_lt h4) h5
  · exact decode_row_wide_dec (Nat.le_of_not_lt h5)

/-! The rows by match and mask. -/

theorem opField_of_match {w m c : Cmd} (h : w &&& m = c) (hmask : opField m = BitVec.allOnes 2) :
    opField w = opField c := by
  rw [← h, opField, opField, BitVec.extractLsb'_and, ← opField, ← opField, hmask, BitVec.and_allOnes]

theorem aboveBlock_of_match {w m c : Cmd} (h : w &&& m = c) (hmask : aboveBlock m = BitVec.allOnes 2) :
    aboveBlock w = aboveBlock c := by
  rw [← h, aboveBlock, aboveBlock, BitVec.extractLsb'_and, ← aboveBlock, ← aboveBlock, hmask, BitVec.and_allOnes]

/-- A word is in no two rows whose operation codes differ. -/
theorem match_disjoint {w m c m' c' : Cmd} (hmask : opField m = BitVec.allOnes 2)
    (hmask' : opField m' = BitVec.allOnes 2) (hne : opField c ≠ opField c') : ¬(w &&& m = c ∧ w &&& m' = c') :=
  fun ⟨h, h'⟩ => hne ((opField_of_match h hmask).symm.trans (opField_of_match h' hmask'))

/-- A word that decodes to a command lies in the row of that command. -/
theorem match_of_decode {w : Cmd} {i : Instr} (h : decode w = .legal i) : w &&& rowMask i = rowMatch i := by
  rw [← encode_of_decode h]
  cases i with
  | loadkey k => exact Laws.TableRow.loadkey k
  | enc b => exact Laws.TableRow.enc b
  | dec b => exact Laws.TableRow.dec b

theorem match_loadkey_iff (w : Cmd) : w &&& 0xC00#12 = 0x400#12 ↔ ∃ k, decode w = .legal (.loadkey k) :=
  ⟨fun h => ⟨_, decode_of_loadkey (opField_of_match h rfl)⟩, fun ⟨_, h⟩ => match_of_decode h⟩

theorem match_enc_iff (w : Cmd) : w &&& 0xF00#12 = 0x800#12 ↔ ∃ b, decode w = .legal (.enc b) :=
  ⟨fun h => ⟨_, decode_of_enc (opField_of_match h rfl) (aboveBlock_of_match h rfl)⟩, fun ⟨_, h⟩ => match_of_decode h⟩

theorem match_dec_iff (w : Cmd) : w &&& 0xF00#12 = 0xC00#12 ↔ ∃ b, decode w = .legal (.dec b) :=
  ⟨fun h => ⟨_, decode_of_dec (opField_of_match h rfl) (aboveBlock_of_match h rfl)⟩, fun ⟨_, h⟩ => match_of_decode h⟩

/-! Counting. -/

/-- The count of a range in two parts. -/
theorem countWords_split {lo hi : Nat} (mid : Nat) (hlo : lo ≤ mid) (hhi : mid ≤ hi) (p : Decoded → Bool) :
    countWords lo hi p = countWords lo mid p + countWords mid hi p := by
  have parts : hi - lo = (mid - lo) + (hi - mid) := by omega
  have shift : ∀ n, lo + (mid - lo + n) = mid + n := by omega
  simp only [countWords, parts, List.range_add, List.countP_append, List.countP_map, Function.comp_def, shift]

/-- The count of a range on whose words the property has one value. -/
theorem countWords_const {lo hi : Nat} {p : Decoded → Bool} (v : Bool) (hhi : hi ≤ 0x1000)
    (h : ∀ w : Cmd, lo ≤ w.toNat → w.toNat < hi → p (decode w) = v) :
    countWords lo hi p = if v then hi - lo else 0 := by
  have value : ∀ n ∈ List.range (hi - lo), p (decode (BitVec.ofNat 12 (lo + n))) = v := by
    intro n hn
    rw [List.mem_range] at hn
    apply h <;> rw [BitVec.toNat_ofNat] <;> omega
  cases v with
  | true => exact (List.countP_eq_length.mpr value).trans List.length_range
  | false => exact List.countP_eq_zero.mpr fun n hn => by simp [value n hn]

/-- The count of all words by legality: `v` the value of the property on the legal words, the other its value on the
illegal words. -/
theorem countWords_by_legality {p : Decoded → Bool} (v : Bool) (legal : ∀ i, p (.legal i) = v)
    (illegal : ∀ why, p (.illegal why) = !v) : countWords 0x000 0x1000 p = if v then 1536 else 2560 := by
  have reserved : countWords 0x000 0x400 p = _ :=
    countWords_const (!v) (by decide) fun w _ hi => by rw [decode_row_reserved hi, illegal]
  have loadkey : countWords 0x400 0x800 p = _ :=
    countWords_const v (by decide) fun w lo hi => by rw [decode_row_loadkey lo hi, legal]
  have enc : countWords 0x800 0x900 p = _ :=
    countWords_const v (by decide) fun w lo hi => by rw [decode_row_enc lo hi, legal]
  have wideEnc : countWords 0x900 0xC00 p = _ :=
    countWords_const (!v) (by decide) fun w lo hi => by rw [decode_row_wide_enc lo hi, illegal]
  have dec : countWords 0xC00 0xD00 p = _ :=
    countWords_const v (by decide) fun w lo hi => by rw [decode_row_dec lo hi, legal]
  have wideDec : countWords 0xD00 0x1000 p = _ :=
    countWords_const (!v) (by decide) fun w lo _ => by rw [decode_row_wide_dec lo, illegal]
  rw [countWords_split 0xD00 (by decide) (by decide), countWords_split 0xC00 (by decide) (by decide),
    countWords_split 0x900 (by decide) (by decide), countWords_split 0x800 (by decide) (by decide),
    countWords_split 0x400 (by decide) (by decide), reserved, loadkey, enc, wideEnc, dec, wideDec]
  cases v <;> rfl

/-- Settles O2: the rows by value, by match and mask, and counted. -/
theorem opcodeMapComplete : Obligations.OpcodeMapComplete :=
  ⟨decode_by_value,
    fun w => ⟨match_loadkey_iff w, match_enc_iff w, match_dec_iff w, match_disjoint rfl rfl (by decide),
      match_disjoint rfl rfl (by decide), match_disjoint rfl rfl (by decide)⟩,
    countWords_const true (by decide) fun _ _ hi => by rw [decode_row_reserved hi]; rfl,
    countWords_const true (by decide) fun _ lo hi => by rw [decode_row_loadkey lo hi]; rfl,
    countWords_const true (by decide) fun _ lo hi => by rw [decode_row_enc lo hi]; rfl,
    countWords_const true (by decide) fun _ lo hi => by rw [decode_row_wide_enc lo hi]; rfl,
    countWords_const true (by decide) fun _ lo hi => by rw [decode_row_dec lo hi]; rfl,
    countWords_const true (by decide) fun _ lo _ => by rw [decode_row_wide_dec lo]; rfl,
    countWords_by_legality true (fun _ => rfl) fun _ => rfl,
    countWords_by_legality false (fun _ => rfl) fun _ => rfl⟩

end Sys2Proof
end

section
/-! One response per command word, of the kind that rule R66 of `30_encoding.md` names, and the response word. -/

namespace Sys2Proof

open Machine

/-- The one response to a command word `w` taken in the state `s`, and the fault condition after it: in the faulted
condition the fault already taken; otherwise Ack for a LOADKEY, Data for a block command with a key loaded, and a fault
newly taken for any other word. -/
inductive Answer (s t : State) (w : Cmd) : Response → Prop where
  | stillFaulted {c : FaultKind} (before : s.faulted = some c) (after : t.faulted = some c) : Answer s t w (.fault c)
  | ack (before : s.faulted = none) (after : t.faulted = none) {k : Key} (isLoadkey : decode w = .legal (.loadkey k)) :
      Answer s t w .ack
  | data (before : s.faulted = none) (after : t.faulted = none) {r : KeyRegs} (keyed : s.regs = some r) {b : Block}
      (isBlock : decode w = .legal (.enc b) ∨ decode w = .legal (.dec b)) (result : Block) : Answer s t w (.data result)
  | illegal (before : s.faulted = none) (after : t.faulted = some .illegalCmd) {why : IllegalReason}
      (isIllegal : decode w = .illegal why) : Answer s t w (.fault .illegalCmd)
  | noKey (before : s.faulted = none) (after : t.faulted = some .noKey) (unkeyed : s.regs = none) {b : Block}
      (isBlock : decode w = .legal (.enc b) ∨ decode w = .legal (.dec b)) : Answer s t w (.fault .noKey)

theorem accept_answer {T : Tables} {s t : State} {w : Cmd} (h : accept (execWith T) w s = .next t) :
    ∃ r, t.responses = s.responses ++ [r] ∧ Answer s t w r := by
  cases hdecode : decode w with
  | illegal why =>
    rw [accept_illegal hdecode] at h
    cases h
    rcases illegalCommand_cases s with ⟨c, hf, hill⟩ | ⟨hn, hill⟩ <;> rw [hill]
    · exact ⟨_, rfl, .stillFaulted hf hf⟩
    · exact ⟨_, rfl, .illegal hn rfl hdecode⟩
  | legal i =>
    rw [accept_legal hdecode] at h
    rcases execWith_cases T i s with ⟨c, hf, hexec⟩ | ⟨hn, k, rfl, hexec⟩ | ⟨hn, hr, ⟨b, rfl | rfl⟩, hexec⟩ |
      ⟨hn, r, b, hr, rfl, hexec⟩ | ⟨hn, r, b, hr, rfl, hexec⟩ <;> cases hexec.symm.trans h
    · exact ⟨_, rfl, .stillFaulted hf hf⟩
    · exact ⟨_, rfl, .ack hn hn hdecode⟩
    · exact ⟨_, rfl, .noKey hn rfl hr (.inl hdecode)⟩
    · exact ⟨_, rfl, .noKey hn rfl hr (.inr hdecode)⟩
    · exact ⟨_, rfl, .data hn ((respond_faulted _ s).trans hn) hr (.inl hdecode) _⟩
    · exact ⟨_, rfl, .data hn ((respond_faulted _ s).trans hn) hr (.inr hdecode) _⟩

namespace Answer

variable {s t : State} {w : Cmd} {r : Response}

/-- Ack exactly for a LOADKEY that completes. -/
theorem ack_iff (h : Answer s t w r) : r = .ack ↔ s.fault = false ∧ ∃ k, decode w = .legal (.loadkey k) := by
  cases h with
  | stillFaulted before _ => simp [fault_of_some before]
  | ack before _ isLoadkey => exact iff_of_true rfl ⟨fault_of_none before, _, isLoadkey⟩
  | data _ _ _ isBlock _ => rcases isBlock with hd | hd <;> simp [hd]
  | illegal _ _ isIllegal => simp [isIllegal]
  | noKey _ _ _ isBlock => rcases isBlock with hd | hd <;> simp [hd]

/-- Data exactly for an ENC or DEC that completes. -/
theorem data_iff (h : Answer s t w r) : (∃ b, r = .data b) ↔
    s.fault = false ∧ s.kv = true ∧ ∃ b, decode w = .legal (.enc b) ∨ decode w = .legal (.dec b) := by
  cases h with
  | stillFaulted before _ => simp [fault_of_some before]
  | ack _ _ isLoadkey => simp [isLoadkey]
  | data before _ keyed isBlock result =>
    exact iff_of_true ⟨result, rfl⟩ ⟨fault_of_none before, kv_of_some keyed, _, isBlock⟩
  | illegal _ _ isIllegal => simp [isIllegal]
  | noKey _ _ unkeyed _ => simp [kv_of_none unkeyed]

/-- Fault exactly when the core is faulted afterwards. -/
theorem fault_iff (h : Answer s t w r) : (∃ c, r = .fault c) ↔ t.fault = true := by
  cases h with
  | stillFaulted _ after | illegal _ after _ | noKey _ after _ _ => exact iff_of_true ⟨_, rfl⟩ (fault_of_some after)
  | ack _ after _ | data _ after _ _ _ => simp [fault_of_none after]

/-- The code of a Fault response is the one recorded. -/
theorem fault_code {c : FaultKind} (h : Answer s t w (.fault c)) : c.code = t.fcode := by
  cases h with
  | stillFaulted _ after | illegal _ after _ | noKey _ after _ _ => exact (fcode_of_some after).symm

end Answer

/-! The response word. -/

/-- Position `p` of a result is wire `8 − p` of its Data response. -/
theorem data_wire (b : Block) {p : Nat} (h1 : 1 ≤ p) : bitAt b p = (Response.data b).toRsp.getLsbD (8 - p) :=
  (BitVec.getLsbD_append.trans (if_pos (by omega))).symm

/-- The word of a Fault response: its kind, six 0 wires and the code. -/
theorem fault_word (c : FaultKind) : (Response.fault c).toRsp.extractLsb' 8 2 = 0b10#2 ∧
    (Response.fault c).toRsp.extractLsb' 2 6 = 0b000000#6 ∧ (Response.fault c).toRsp.extractLsb' 0 2 = c.code ∧
    (c.code = 1#2 ∨ c.code = 2#2) := by
  cases c <;> decide

/-- Settles O32: the responses by the five answers to a command word, their words by the three kinds. -/
theorem oneResponsePerCommand : Obligations.OneResponsePerCommand := by
  refine ⟨fun s t w rest taken hstep => ?_, rfl, fun b => ⟨data_kind b, fun p h1 _ => data_wire b h1⟩, fault_word,
    fun r => (responseProper r).1⟩
  rw [step_command taken] at hstep
  obtain ⟨r, hr, answer⟩ := accept_answer hstep
  refine ⟨r, hr, answer.ack_iff, answer.data_iff, answer.fault_iff, ?_⟩
  rintro c rfl
  exact answer.fault_code

end Sys2Proof
end

section
/-! The text of a command (`30_encoding.md` rule R67): what its binary and hexadecimal digits read back as, the words of
its line, and the line assembled. -/

namespace Sys2Proof

open Machine

/-! Digits read back. -/

@[simp] theorem length_bitsText {w : Nat} (v : BitVec w) : (bitsText v).length = w := by simp [bitsText]

/-- The characters of a binary text. -/
theorem mem_bitsText {w : Nat} {v : BitVec w} {c : Char} (h : c ∈ bitsText v) : c = '0' ∨ c = '1' := by
  obtain ⟨i, -, rfl⟩ := List.mem_map.mp h
  split
  · exact .inr rfl
  · exact .inl rfl

theorem operandTextOk_bitsText {w : Nat} (v : BitVec w) : operandTextOk w (bitsText v) = true := by
  have digits : ∀ c ∈ bitsText v, (c == '0' || c == '1') = true := fun c hc => by simpa using mem_bitsText hc
  rw [operandTextOk, length_bitsText, List.all_eq_true.mpr digits, beq_self_eq_true]
  rfl

/-- Character `p` of a binary text is position `p` (`00_scope.md` rule R10). -/
theorem bitsText_position {w : Nat} (v : BitVec w) {p : Nat} (h1 : 1 ≤ p) (hw : p ≤ w) :
    ((bitsText v).getD (p - 1) '0' == '1') = bitAt v p := by
  have character : (bitsText v).getD (p - 1) '0' = if bitAt v p then '1' else '0' := by
    rw [List.getD_eq_getElem _ _ (by rw [length_bitsText]; omega)]
    simp [bitsText, Nat.sub_add_cancel h1]
  rw [character]
  cases bitAt v p <;> rfl

theorem readBits_bitsText {w : Nat} (v : BitVec w) : readBits w (bitsText v) = some v := by
  rw [readBits, if_pos (operandTextOk_bitsText v)]
  congr 1
  apply eq_of_bitAt_eq
  intro p h1 hw
  rw [bitAt_build _ _ _ h1 hw, bitsText_position v h1 hw]

theorem readBits_of_bad {w : Nat} {cs : List Char} (h : operandTextOk w cs = false) : readBits w cs = none := by
  rw [readBits, if_neg (by simp [h])]

theorem hexText_mem (v : BitVec 4) : hexText v ∈ hexDigits := by
  revert v
  decide

theorem readHex_hexText (v : BitVec 4) : readHex (hexText v) = some v := by
  revert v
  decide

/-- The operand of `.word` in a listing: `0x` and the three hexadecimal digits of the word. -/
def wordText (w : Cmd) : List Char :=
  ['0', 'x', hexText (w.extractLsb' 8 4), hexText (w.extractLsb' 4 4), hexText (w.extractLsb' 0 4)]

theorem readWord_wordText (w : Cmd) : readWord (wordText w) = some w := by
  have low : w.extractLsb' 4 4 ++ w.extractLsb' 0 4 = w.extractLsb' 0 (4 + 4) :=
    BitVec.extractLsb'_append_extractLsb'_eq_extractLsb' rfl
  have all : w.extractLsb' 8 4 ++ w.extractLsb' 0 (4 + 4) = w.extractLsb' 0 (4 + (4 + 4)) :=
    BitVec.extractLsb'_append_extractLsb'_eq_extractLsb' rfl
  simp only [wordText, readWord, readHex_hexText]
  rw [low, all]
  exact congrArg some BitVec.extractLsb'_eq_self

/-! The words of a line. -/

/-- The text of one word of a command: not empty, with no space in it and no start of a comment. -/
structure IsWord (cs : List Char) : Prop where
  nonempty : cs ≠ []
  noSpace : ' ' ∉ cs
  noComment : ';' ∉ cs

theorem lineWords_nil : lineWords [] = [] := by simp [lineWords]

theorem lineWords_space (cs : List Char) : lineWords (' ' :: cs) = lineWords cs := by simp [lineWords]

/-- A one-character word before a space. -/
theorem lineWords_singleton_space {c : Char} (hc : c ≠ ' ') (rest : List Char) :
    lineWords (c :: ' ' :: rest) = [c] :: lineWords (' ' :: rest) := by
  rw [lineWords]
  simp [hc]

/-- A character with more of its word after it. -/
theorem lineWords_cons {c d : Char} (hc : c ≠ ' ') (hd : d ≠ ' ') {cs u : List Char} {us : List (List Char)}
    (h : lineWords (d :: cs) = u :: us) : lineWords (c :: d :: cs) = (c :: u) :: us := by
  rw [lineWords]
  simp [hc, hd, h]

/-- A word at the start of a line is its first word, when the line ends after it or goes on with a space. -/
theorem lineWords_append {cs rest : List Char} (hne : cs ≠ []) (hspace : ' ' ∉ cs) (hrest : ∀ d ∈ rest.head?, d = ' ') :
    lineWords (cs ++ rest) = cs :: lineWords rest := by
  induction cs with
  | nil => exact absurd rfl hne
  | cons c cs ih =>
    obtain ⟨hc, hcs⟩ := List.ne_and_not_mem_of_not_mem_cons hspace
    cases cs with
    | nil =>
      cases rest with
      | nil => simp [lineWords, hc.symm]
      | cons d rest =>
        obtain rfl : d = ' ' := hrest d rfl
        exact lineWords_singleton_space hc.symm rest
    | cons d cs =>
      obtain ⟨hd, -⟩ := List.ne_and_not_mem_of_not_mem_cons hcs
      exact lineWords_cons hc.symm hd.symm (ih (List.cons_ne_nil d cs) hcs)

theorem lineWords_word {cs : List Char} (h : IsWord cs) : lineWords cs = [cs] := by
  have words := lineWords_append (rest := []) h.nonempty h.noSpace nofun
  rwa [List.append_nil, lineWords_nil] at words

theorem lineWords_word_space {cs : List Char} (h : IsWord cs) (rest : List Char) :
    lineWords (cs ++ ' ' :: rest) = cs :: lineWords rest := by
  have words := lineWords_append (rest := ' ' :: rest) h.nonempty h.noSpace (by simp)
  rwa [lineWords_space] at words

/-- What is before the first `;` stays of a line. -/
theorem dropComment_append {cs : List Char} (h : ';' ∉ cs) (rest : List Char) :
    dropComment (cs ++ rest) = cs ++ dropComment rest :=
  List.takeWhile_append_of_pos fun _ hc => bne_iff_ne.mpr (ne_of_mem_of_not_mem hc h)

theorem dropComment_of_noComment {cs : List Char} (h : ';' ∉ cs) : dropComment cs = cs := by
  have nothing : dropComment [] = [] := rfl
  have kept := dropComment_append h []
  rwa [nothing, List.append_nil] at kept

/-- The words of a command's line. -/
theorem lineWords_command {name operand : List Char} (hname : IsWord name) (hoperand : ';' ∉ operand) :
    lineWords (dropComment (name ++ ' ' :: operand)) = name :: lineWords operand := by
  have noComment : ';' ∉ ' ' :: operand := by simp [hoperand]
  rw [dropComment_append hname.noComment, dropComment_of_noComment noComment, lineWords_word_space hname]

/-- A comment after a command does not change its words. -/
theorem lineWords_command_comment {name operand : List Char} (hname : IsWord name) (hoperand : IsWord operand)
    (comment : List Char) :
    lineWords (dropComment (name ++ ' ' :: operand ++ ' ' :: ';' :: comment)) = [name, operand] := by
  have noComment : ';' ∉ name ++ ' ' :: operand := by simp [hname.noComment, hoperand.noComment]
  have comment_dropped : dropComment (' ' :: ';' :: comment) = [' '] := rfl
  rw [dropComment_append noComment, comment_dropped, List.append_assoc, List.cons_append, lineWords_word_space hname,
    lineWords_word_space hoperand, lineWords_nil]

/-! A line assembled, by its words. -/

theorem assembleLine_loadkey {line operand : List Char} (h : lineWords (dropComment line) = [loadkeyName, operand]) :
    assembleLine line = (readBits 10 operand).map fun k => encode (.loadkey k) := by
  simp [assembleLine, h]

theorem assembleLine_enc {line operand : List Char} (h : lineWords (dropComment line) = [encName, operand]) :
    assembleLine line = (readBits 8 operand).map fun b => encode (.enc b) := by
  simp [assembleLine, h, show encName ≠ loadkeyName by decide]

theorem assembleLine_dec {line operand : List Char} (h : lineWords (dropComment line) = [decName, operand]) :
    assembleLine line = (readBits 8 operand).map fun b => encode (.dec b) := by
  simp [assembleLine, h, show decName ≠ loadkeyName by decide, show decName ≠ encName by decide]

theorem assembleLine_word {line operand : List Char} (h : lineWords (dropComment line) = [wordName, operand]) :
    assembleLine line = readWord operand := by
  simp [assembleLine, h, show wordName ≠ loadkeyName by decide, show wordName ≠ encName by decide,
    show wordName ≠ decName by decide]

theorem assembleLine_of_one_word {line name : List Char} (h : lineWords (dropComment line) = [name]) :
    assembleLine line = none := by
  simp [assembleLine, h]

/-- A line that would be refused with the operand as its second word is refused with any operand, the empty one too. -/
theorem assembleLine_refused {name operand : List Char} (hname : IsWord name) (hspace : ' ' ∉ operand)
    (hcomment : ';' ∉ operand)
    (h : ∀ line, lineWords (dropComment line) = [name, operand] → assembleLine line = none) :
    assembleLine (name ++ ' ' :: operand) = none := by
  have words := lineWords_command hname hcomment
  by_cases hempty : operand = []
  · rw [hempty, lineWords_nil, ← hempty] at words
    exact assembleLine_of_one_word words
  · rw [lineWords_word ⟨hempty, hspace, hcomment⟩] at words
    exact h _ words

/-! The listing. -/

theorem isWord_loadkeyName : IsWord loadkeyName := ⟨by decide, by decide, by decide⟩

theorem isWord_encName : IsWord encName := ⟨by decide, by decide, by decide⟩

theorem isWord_decName : IsWord decName := ⟨by decide, by decide, by decide⟩

theorem isWord_wordName : IsWord wordName := ⟨by decide, by decide, by decide⟩

theorem isWord_bitsText {w : Nat} (v : BitVec w) (hw : 0 < w) : IsWord (bitsText v) where
  nonempty := List.ne_nil_of_length_pos (by rwa [length_bitsText])
  noSpace h := absurd (mem_bitsText h) (by decide)
  noComment h := absurd (mem_bitsText h) (by decide)

theorem isWord_wordText (w : Cmd) : IsWord (wordText w) := by
  have digit_ne : ∀ c ∉ hexDigits, ∀ v, c ≠ hexText v := fun c hc v h => hc (h ▸ hexText_mem v)
  refine ⟨List.cons_ne_nil _ _, ?_, ?_⟩
  · simp [wordText, digit_ne ' ' (by decide)]
  · simp [wordText, digit_ne ';' (by decide)]

/-- A listing is two words, and every line of these two words assembles to the word listed. -/
theorem listing_words (w : Cmd) : ∃ name operand, IsWord name ∧ IsWord operand ∧ listing w = name ++ ' ' :: operand ∧
    ∀ line, lineWords (dropComment line) = [name, operand] → assembleLine line = some w := by
  cases hdecode : decode w with
  | illegal why =>
    refine ⟨wordName, wordText w, isWord_wordName, isWord_wordText w, by simp [listing, hdecode, wordText], ?_⟩
    intro line h
    rw [assembleLine_word h, readWord_wordText]
  | legal i =>
    have hw := encode_of_decode hdecode
    cases i with
    | loadkey k =>
      refine ⟨loadkeyName, bitsText k, isWord_loadkeyName, isWord_bitsText k (by decide), by simp [listing, hdecode],
        ?_⟩
      intro line h
      rw [assembleLine_loadkey h, readBits_bitsText, Option.map_some, hw]
    | enc b =>
      refine ⟨encName, bitsText b, isWord_encName, isWord_bitsText b (by decide), by simp [listing, hdecode], ?_⟩
      intro line h
      rw [assembleLine_enc h, readBits_bitsText, Option.map_some, hw]
    | dec b =>
      refine ⟨decName, bitsText b, isWord_decName, isWord_bitsText b (by decide), by simp [listing, hdecode], ?_⟩
      intro line h
      rw [assembleLine_dec h, readBits_bitsText, Option.map_some, hw]

/-- Settles O7: the two words of a listing, and the operands that no mnemonic reads. -/
theorem textOfCommandsRoundTrips : Obligations.TextOfCommandsRoundTrips := by
  refine ⟨fun w => ?_, fun w comment => ?_, fun operand hspace hcomment hbad => ?_,
    fun operand hspace hcomment hbad => ⟨?_, ?_⟩, by decide, by decide, by decide⟩
  · obtain ⟨name, operand, hname, hoperand, hlisting, hassemble⟩ := listing_words w
    apply hassemble
    rw [hlisting, lineWords_command hname hoperand.noComment, lineWords_word hoperand]
  · obtain ⟨name, operand, hname, hoperand, hlisting, hassemble⟩ := listing_words w
    apply hassemble
    rw [hlisting, lineWords_command_comment hname hoperand]
  · exact assembleLine_refused isWord_loadkeyName hspace hcomment fun line h => by
      rw [assembleLine_loadkey h, readBits_of_bad hbad, Option.map_none]
  · exact assembleLine_refused isWord_encName hspace hcomment fun line h => by
      rw [assembleLine_enc h, readBits_of_bad hbad, Option.map_none]
  · exact assembleLine_refused isWord_decName hspace hcomment fun line h => by
      rw [assembleLine_dec h, readBits_of_bad hbad, Option.map_none]

end Sys2Proof
end

section
/-! The checks of a `TABLES` value as propositions about positions (`40_permutation_engine.md` rules R81, R89,
`41_sbox.md` rule R100). -/

namespace Sys2Proof

theorem permTableOk_iff {win wout : Nat} {t : List Nat} :
    permTableOk win wout t = true ↔ t.length = wout ∧ ∀ p ∈ t, 1 ≤ p ∧ p ≤ win := by
  simp [permTableOk]

/-- The source of an output position is an entry of the table. -/
theorem getD_mem_of_position {t : List Nat} {i : Nat} (h1 : 1 ≤ i) (hi : i ≤ t.length) : t.getD (i - 1) 0 ∈ t := by
  rw [List.getD_eq_getElem t 0 (by omega)]
  exact List.getElem_mem _

/-- An entry of the table is the source of some output position. -/
theorem exists_position_of_mem {t : List Nat} {p : Nat} (h : p ∈ t) :
    ∃ i, 1 ≤ i ∧ i ≤ t.length ∧ t.getD (i - 1) 0 = p := by
  obtain ⟨j, hj, hp⟩ := List.getElem_of_mem h
  exact ⟨j + 1, by omega, hj, by rw [Nat.add_sub_cancel, List.getD_eq_getElem t 0 hj, hp]⟩

theorem entry_bounds {win wout : Nat} {t : List Nat} (ok : permTableOk win wout t = true) {i : Nat} (h1 : 1 ≤ i)
    (hi : i ≤ wout) : 1 ≤ t.getD (i - 1) 0 ∧ t.getD (i - 1) 0 ≤ win := by
  obtain ⟨hlength, hentries⟩ := permTableOk_iff.mp ok
  exact hentries _ (getD_mem_of_position h1 (hlength ▸ hi))

theorem mem_of_listsAllPositions {w : Nat} {t : List Nat} (all : listsAllPositions w t = true) {p : Nat} (h1 : 1 ≤ p)
    (hp : p ≤ w) : p ∈ t := by
  simp only [listsAllPositions, List.all_eq_true, List.mem_range, List.contains_iff_mem] at all
  have listed := all (p - 1) (by omega)
  rwa [Nat.sub_add_cancel h1] at listed

/-- A table of `w` entries that lists every position of `1..w` is a rearrangement of them (rule R81). -/
theorem positions_perm_table {w : Nat} {t : List Nat} (ok : permTableOk w w t = true)
    (all : listsAllPositions w t = true) : (List.range' 1 w).Perm t := by
  obtain ⟨hlength, -⟩ := permTableOk_iff.mp ok
  have listed : List.range' 1 w ⊆ t := fun p hp => by
    rw [List.mem_range'_1] at hp
    exact mem_of_listsAllPositions all (by omega) (by omega)
  exact (List.subperm_of_subset List.nodup_range' listed).perm_of_length_le (by simp [hlength])

theorem inverse_entry {w : Nat} {inv t : List Nat} (inverts : positionallyInverts w inv t = true) {i : Nat}
    (h1 : 1 ≤ i) (hi : i ≤ w) : inv.getD (t.getD (i - 1) 0 - 1) 0 = i := by
  simp only [positionallyInverts, List.all_eq_true, List.mem_range, beq_iff_eq] at inverts
  have entry := inverts (i - 1) (by omega)
  rwa [Nat.sub_add_cancel h1] at entry

/-- `TableData.wellFormed`, check by check. -/
structure TableData.Checks (d : TableData) : Prop where
  p10 : permTableOk 10 10 d.p10 = true
  p10_all : listsAllPositions 10 d.p10 = true
  p8 : permTableOk 10 8 d.p8 = true
  ip : permTableOk 8 8 d.ip = true
  ip_all : listsAllPositions 8 d.ip = true
  ipinv : permTableOk 8 8 d.ipinv = true
  ipinv_all : listsAllPositions 8 d.ipinv = true
  ipinv_ip : positionallyInverts 8 d.ipinv d.ip = true
  ip_ipinv : positionallyInverts 8 d.ip d.ipinv = true
  ep : permTableOk 4 8 d.ep = true
  p4 : permTableOk 4 4 d.p4 = true
  p4_all : listsAllPositions 4 d.p4 = true
  s0 : boxOk d.s0 = true
  s1 : boxOk d.s1 = true

/-- Every configuration passes every check (rule R81). -/
theorem Tables.checks (T : Tables) : T.data.Checks := by
  have ok := T.ok
  simp only [TableData.wellFormed, Bool.and_eq_true] at ok
  obtain ⟨⟨⟨⟨⟨⟨⟨⟨⟨⟨⟨⟨⟨p10, p10_all⟩, p8⟩, ip⟩, ip_all⟩, ipinv⟩, ipinv_all⟩, ipinv_ip⟩, ip_ipinv⟩, ep⟩, p4⟩, p4_all⟩,
    s0⟩, s1⟩ := ok
  exact ⟨p10, p10_all, p8, ip, ip_all, ipinv, ipinv_all, ipinv_ip, ip_ipinv, ep, p4, p4_all, s0, s1⟩

end Sys2Proof
end

section
/-! PERM by position and as a number (`40_permutation_engine.md` rules R80, R90). -/

namespace Sys2Proof

open Machine

theorem bitAt_perm {t : List Nat} {win wout : Nat} (v : BitVec win) {i : Nat} (h1 : 1 ≤ i) (hi : i ≤ wout) :
    bitAt (perm t win wout v) i = bitAt v (t.getD (i - 1) 0) :=
  bitAt_build wout _ i h1 hi

/-- Settles O40: PERM is built position by position. -/
theorem permIsAGather : Obligations.PermIsAGather :=
  ⟨fun _ _ _ v _ h1 hi => bitAt_perm v h1 hi, by decide⟩

/-- `build` as a number: position `i + 1` has the weight of wire `w − (i + 1)`. -/
theorem toNat_build (w : Nat) (f : Nat → Bool) :
    (build w f).toNat = ((List.range w).map fun i => (f (i + 1)).toNat <<< (w - (i + 1))).sum := by
  induction w with
  | zero => rfl
  | succ w ih =>
    have doubled : ∀ i ∈ List.range w,
        (f (i + 1)).toNat <<< (w + 1 - (i + 1)) = (f (i + 1)).toNat <<< (w - (i + 1)) * 2 := by
      intro i hi
      rw [List.mem_range] at hi
      rw [show w + 1 - (i + 1) = w - (i + 1) + 1 by omega, Nat.shiftLeft_succ, Nat.mul_comm]
    rw [build, BitVec.toNat_concat, ih, List.range_succ, List.map_append, List.sum_append, List.map_congr_left doubled,
      List.sum_map_mul_right]
    simp

/-- The bit at a position as a number, by a shift and a mask. -/
theorem toNat_bitAt {w : Nat} (v : BitVec w) (p : Nat) : (bitAt v p).toNat = (v.toNat >>> (w - p)) &&& 1 := by
  rw [bitAt, BitVec.getLsbD, Nat.toNat_testBit, Nat.and_one_is_mod, Nat.shiftRight_eq_div_pow]

/-- Settles O41: the weights of the positions `build` makes, each with the bit that PERM selects. The premise on
the entries is not needed: `bitAt` and the shift take the same wire of any source position. -/
theorem permIntegerForm : Obligations.PermIntegerForm := by
  intro t win wout v _
  simp only [perm, toNat_build, toNat_bitAt, Nat.add_sub_cancel]

end Sys2Proof
end

section
/-! The laws of PERM (`40_permutation_engine.md` rule R91). -/

namespace Sys2Proof

open Machine

theorem bitAt_xor {w : Nat} (a b : BitVec w) (p : Nat) : bitAt (a ^^^ b) p = (bitAt a p ^^ bitAt b p) :=
  BitVec.getLsbD_xor

theorem bitAt_zero (w p : Nat) : bitAt 0#w p = false :=
  BitVec.getLsbD_zero

theorem bitAt_allOnes {w p : Nat} (h1 : 1 ≤ p) (hp : p ≤ w) : bitAt (BitVec.allOnes w) p = true := by
  rw [bitAt, BitVec.getLsbD_allOnes]
  exact decide_eq_true (by omega)

theorem perm_xor (t : List Nat) {win : Nat} (wout : Nat) (a b : BitVec win) :
    perm t win wout (a ^^^ b) = perm t win wout a ^^^ perm t win wout b := by
  apply eq_of_bitAt_eq
  intro i h1 hi
  simp only [bitAt_perm _ h1 hi, bitAt_xor]

theorem perm_zero (t : List Nat) (win wout : Nat) : perm t win wout 0#win = 0#wout := by
  apply eq_of_bitAt_eq
  intro i h1 hi
  rw [bitAt_perm _ h1 hi, bitAt_zero, bitAt_zero]

theorem perm_allOnes {t : List Nat} {win wout : Nat} (ok : permTableOk win wout t = true) :
    perm t win wout (BitVec.allOnes win) = BitVec.allOnes wout := by
  apply eq_of_bitAt_eq
  intro i h1 hi
  obtain ⟨hsource, hwin⟩ := entry_bounds ok h1 hi
  rw [bitAt_perm _ h1 hi, bitAt_allOnes hsource hwin, bitAt_allOnes h1 hi]

/-- A table that lists every source position loses no bit: its output determines its input. -/
theorem perm_injective {t : List Nat} {win wout : Nat} (ok : permTableOk win wout t = true)
    (all : listsAllPositions win t = true) : Function.Injective (perm t win wout) := by
  intro a b hab
  apply eq_of_bitAt_eq
  intro p h1 hp
  obtain ⟨hlength, -⟩ := permTableOk_iff.mp ok
  obtain ⟨i, hi1, hi, hentry⟩ := exists_position_of_mem (mem_of_listsAllPositions all h1 hp)
  have gathered := congrArg (bitAt · i) hab
  simp only [bitAt_perm _ hi1 (hlength ▸ hi), hentry] at gathered
  exact gathered

theorem perm_bijective {t : List Nat} {w : Nat} (ok : permTableOk w w t = true)
    (all : listsAllPositions w t = true) : Function.Bijective (perm t w w) :=
  have : Finite (BitVec w) := Finite.of_equiv _ BitVec.equivFin.symm.toEquiv
  Finite.injective_iff_bijective.mp (perm_injective ok all)

theorem ones_eq_countP {w : Nat} (v : BitVec w) : ones v = (List.range' 1 w).countP (bitAt v) := by
  rw [List.range'_eq_map_range, List.countP_map, ones]
  simp only [Function.comp_def, Nat.add_comm]

/-- The 1 bits of PERM's output are the table's entries at which the input has a 1. -/
theorem ones_perm {t : List Nat} {win wout : Nat} (ok : permTableOk win wout t = true) (v : BitVec win) :
    ones (perm t win wout v) = t.countP (bitAt v) := by
  obtain ⟨rfl, -⟩ := permTableOk_iff.mp ok
  have sources : (List.range t.length).map (t.getD · 0) = t := by
    apply List.ext_getElem <;> simp +contextual
  have gathered : ∀ i ∈ List.range t.length,
      bitAt (perm t win t.length v) (i + 1) = true ↔ (bitAt v ∘ (t.getD · 0)) i = true := by
    intro i hi
    rw [List.mem_range] at hi
    rw [bitAt_perm v (Nat.le_add_left 1 i) hi]
    rfl
  rw [ones, List.countP_congr gathered, ← List.countP_map, sources]

/-- Settles O42: each law position by position; the bijection from injectivity on a finite type; the number of 1 bits
from the table being a rearrangement of the positions. -/
theorem permLaws : Obligations.PermLaws := by
  refine ⟨fun t win wout ok => ⟨perm_xor t wout, perm_zero t win wout, perm_allOnes ok, ?_⟩, fun t w ok all =>
    ⟨perm_bijective ok all, fun v => ?_⟩⟩
  · intro v q _ _ oneHot i h1 hi
    obtain ⟨hsource, hwin⟩ := entry_bounds ok h1 hi
    rw [bitAt_perm v h1 hi, oneHot _ hsource hwin]
  · rw [ones_perm ok, ones_eq_countP, (positions_perm_table ok all).countP_eq]

end Sys2Proof
end

section
/-! The six permutations (`40_permutation_engine.md` rules R83 to R89). -/

namespace Sys2Proof

open Machine

theorem ep_tablesStd_injective : Function.Injective (ep tablesStd) :=
  perm_injective tablesStd.checks.ep (by decide)

/-- The expansion of `TABLES_STD` lists every source position exactly twice. -/
theorem ep_tablesStd_listsTwice : tablesStd.data.ep.Perm (List.range' 1 4 ++ List.range' 1 4) := by decide

theorem ones_ep_tablesStd (r : Half) : ones (ep tablesStd r) = ones r + ones r := by
  rw [ep, ones_perm tablesStd.checks.ep, ep_tablesStd_listsTwice.countP_eq, List.countP_append, ones_eq_countP]

/-- Settles O43: the laws of PERM at each table, and the examples of the rules by evaluation. -/
theorem permutationInstances : Obligations.PermutationInstances := by
  refine ⟨fun T => ⟨perm_zero _ _ _, perm_zero _ _ _, perm_zero _ _ _, perm_zero _ _ _, perm_zero _ _ _,
    perm_zero _ _ _, perm_allOnes T.checks.p10, perm_allOnes T.checks.p8, perm_allOnes T.checks.ip,
    perm_allOnes T.checks.ipinv, perm_allOnes T.checks.ep, perm_allOnes T.checks.p4⟩,
    by decide, by decide, by decide, by decide, by decide, by decide, by decide,
    fun _ _ h => ep_tablesStd_injective h, fun r => ?_⟩
  rw [ones_ep_tablesStd]
  omega

/-- The table `inv` gathers back what `t` gathered, when `t[inv[i]] = i` at every position (rule R89). -/
theorem perm_perm_of_inverts {w : Nat} {t inv : List Nat} (ok : permTableOk w w inv = true)
    (inverts : positionallyInverts w t inv = true) (v : BitVec w) : perm inv w w (perm t w w v) = v := by
  apply eq_of_bitAt_eq
  intro i h1 hi
  obtain ⟨hsource, hw⟩ := entry_bounds ok h1 hi
  rw [bitAt_perm _ h1 hi, bitAt_perm _ hsource hw, inverse_entry inverts h1 hi]

@[simp] theorem ipinv_ip (T : Tables) (b : Block) : ipinv T (ip T b) = b :=
  perm_perm_of_inverts T.checks.ipinv T.checks.ip_ipinv b

@[simp] theorem ip_ipinv (T : Tables) (b : Block) : ip T (ipinv T b) = b :=
  perm_perm_of_inverts T.checks.ip T.checks.ipinv_ip b

/-- `IP` lists a position once. -/
theorem count_ip (T : Tables) {p : Nat} (h1 : 1 ≤ p) (hp : p ≤ 8) : T.data.ip.count p = 1 := by
  rw [← (positions_perm_table T.checks.ip T.checks.ip_all).count_eq]
  exact List.count_eq_one_of_mem List.nodup_range' (List.mem_range'_1.mpr ⟨h1, by omega⟩)

/-- Settles O44: the positional inverse is a check of the configuration, and undoes IP block by block. -/
theorem ipinvInvertsIp : Obligations.IpinvInvertsIp := fun T =>
  ⟨fun _ h1 hp => count_ip T h1 hp,
    fun _ h1 hi => ⟨inverse_entry T.checks.ipinv_ip h1 hi, inverse_entry T.checks.ip_ipinv h1 hi⟩,
    fun b => ⟨ipinv_ip T b, ip_ipinv T b⟩⟩

end Sys2Proof
end

section
/-! The substitution boxes: row, column and output (`41_sbox.md` rules R100 to R104, R106). -/

namespace Sys2Proof

open Machine

theorem boxOk_iff {S : List (List Nat)} :
    boxOk S = true ↔ S.length = 4 ∧ ∀ row ∈ S, row.length = 4 ∧ ∀ v ∈ row, v ≤ 3 := by
  simp [boxOk]

/-- Every entry of a well-formed box is a 2-bit value (rule R100). -/
theorem boxEntry_le_three {S : List (List Nat)} (ok : boxOk S = true) {r c : Nat} (hr : r ≤ 3) (hc : c ≤ 3) :
    boxEntry S r c ≤ 3 := by
  obtain ⟨hrows, hall⟩ := boxOk_iff.mp ok
  have r_lt : r < S.length := by omega
  obtain ⟨hcolumns, hentries⟩ := hall S[r] (List.getElem_mem r_lt)
  have c_lt : c < S[r].length := by omega
  rw [boxEntry, List.getD_eq_getElem S [] r_lt, List.getD_eq_getElem S[r] 0 c_lt]
  exact hentries _ (List.getElem_mem c_lt)

/-- An index made of two bits, the first the high one, is in `0..3`. -/
theorem two_bits_le_three (high low : Bool) : 2 * high.toNat + low.toNat ≤ 3 := by
  have hhigh := high.toNat_le
  have hlow := low.toNat_le
  omega

theorem rowOf_le_three (n : Half) : rowOf n ≤ 3 := two_bits_le_three _ _

theorem colOf_le_three (n : Half) : colOf n ≤ 3 := two_bits_le_three _ _

theorem rowOf_eq_shifts (n : Half) : rowOf n = ((n.toNat >>> 3) &&& 1) * 2 + (n.toNat &&& 1) := by
  rw [rowOf, toNat_bitAt, toNat_bitAt, Nat.mul_comm]
  rfl

/-- The two inner bits, one by one, are the low two bits of `n >> 1`. -/
theorem colOf_eq_shift (n : Half) : colOf n = (n.toNat >>> 1) &&& 3 := by
  have low_two : (n.toNat >>> 1) &&& 3 = (n.toNat >>> 1) % 4 := Nat.and_two_pow_sub_one_eq_mod _ 2
  rw [colOf, toNat_bitAt, toNat_bitAt, low_two]
  simp only [Nat.and_one_is_mod, Nat.shiftRight_eq_div_pow]
  omega

/-- The output of a well-formed box is the table entry: an entry of `0..3` fits the two bits (rule R104). -/
theorem toNat_boxLookup {S : List (List Nat)} (ok : boxOk S = true) (n : Half) :
    (boxLookup S n).toNat = boxEntry S (rowOf n) (colOf n) := by
  have entry_le := boxEntry_le_three ok (rowOf_le_three n) (colOf_le_three n)
  rw [boxLookup, BitVec.toNat_ofNat]
  exact Nat.mod_eq_of_lt (by omega)

/-- Settles O50: the integer forms from the bits' weights, the outputs from the entries' bound. -/
theorem boxLookups : Obligations.BoxLookups :=
  ⟨fun n => ⟨rfl, rfl, rowOf_eq_shifts n, colOf_eq_shift n, rowOf_le_three n, colOf_le_three n⟩,
    fun T n => ⟨toNat_boxLookup T.checks.s0 n, toNat_boxLookup T.checks.s1 n⟩⟩

/-- Settles O51: the sixteen inputs of each box, by evaluation. -/
theorem standardBoxesAsFunctions : Obligations.StandardBoxesAsFunctions := ⟨by decide, by decide⟩

end Sys2Proof
end

section
/-! The two lookups side by side (`41_sbox.md` rule R105): the slices of a concatenation are its parts. -/

namespace Sys2Proof

open Machine

theorem slice_append_first {m n : Nat} (a : BitVec m) (b : BitVec n) : slice (a ++ b) 1 m = a := by
  rw [slice, show m + n + 1 - 1 - m = n by omega]
  exact BitVec.extractLsb'_append_eq_left

theorem slice_append_second {m n : Nat} (a : BitVec m) (b : BitVec n) : slice (a ++ b) (m + 1) n = b := by
  rw [slice, show m + n + 1 - (m + 1) - n = 0 by omega]
  exact BitVec.extractLsb'_append_eq_right

theorem substituted_high (T : Tables) (x : Block) : slice (substituted T x) 1 2 = s0 T (slice x 1 4) :=
  slice_append_first _ _

theorem substituted_low (T : Tables) (x : Block) : slice (substituted T x) 3 2 = s1 T (slice x 5 4) :=
  slice_append_second _ _

/-- Settles O52: each half of the output is one box of one half of the input, so it depends on that half alone. -/
theorem boxLookupsAreIndependent : Obligations.BoxLookupsAreIndependent := by
  refine fun T x x' => ⟨fun same => ?_, fun same => ?_, substituted_high T x, substituted_low T x⟩
  · rw [substituted_high, substituted_high, same]
  · rw [substituted_low, substituted_low, same]

end Sys2Proof
end

section
/-! The rotation of a 5-bit half (`42_key_scheduler.md` rule R111): by position, as the library's `BitVec.rotateLeft`, and
as an action of the rotation amounts. -/

namespace Sys2Proof

open Machine

theorem bitAt_rotl5 (h : KeyHalf) (n : Nat) {i : Nat} (h1 : 1 ≤ i) (hi : i ≤ 5) :
    bitAt (rotl5 h n) i = bitAt h ((i - 1 + n) % 5 + 1) :=
  bitAt_build 5 _ i h1 hi

/-- A position past `n` comes from `n` positions further on; the first `n` that leave re-enter at the low end. -/
theorem rotl5_eq_rotateLeft (h : KeyHalf) (n : Nat) : rotl5 h n = h.rotateLeft n := by
  apply eq_of_bitAt_eq
  intro i h1 hi
  rw [bitAt_rotl5 h n h1 hi, bitAt, bitAt, BitVec.getLsbD_rotateLeft, Bool.cond_decide]
  split
  · congr 1
    omega
  · rw [decide_eq_true (by omega), Bool.true_and]
    congr 1
    omega

/-- The integer form of rule R111, for every amount below 5. -/
theorem toNat_rotl5 (h : KeyHalf) {n : Nat} (hn : n < 5) :
    (rotl5 h n).toNat = ((h.toNat <<< n) ||| (h.toNat >>> (5 - n))) &&& 0x1F := by
  have wrapped_lt : h.toNat >>> (5 - n) < 2 ^ 5 := Nat.lt_of_le_of_lt (Nat.shiftRight_le _ _) h.isLt
  calc (rotl5 h n).toNat
      = (h.toNat <<< n) % 2 ^ 5 ||| h.toNat >>> (5 - n) := by
        rw [rotl5_eq_rotateLeft, BitVec.toNat_rotateLeft, Nat.mod_eq_of_lt hn]
    _ = ((h.toNat <<< n) ||| (h.toNat >>> (5 - n))) % 2 ^ 5 := by
        rw [Nat.or_mod_two_pow, Nat.mod_eq_of_lt wrapped_lt]
    _ = ((h.toNat <<< n) ||| (h.toNat >>> (5 - n))) &&& 0x1F := (Nat.and_two_pow_sub_one_eq_mod _ 5).symm

theorem rotl5_zero (n : Nat) : rotl5 0#5 n = 0#5 := by
  apply eq_of_bitAt_eq
  intro i h1 hi
  rw [bitAt_rotl5 _ n h1 hi, bitAt_zero, bitAt_zero]

theorem rotl5_allOnes (n : Nat) : rotl5 (BitVec.allOnes 5) n = BitVec.allOnes 5 := by
  apply eq_of_bitAt_eq
  intro i h1 hi
  rw [bitAt_rotl5 _ n h1 hi, bitAt_allOnes (by omega) (by omega), bitAt_allOnes h1 hi]

/-- Amounts of successive rotations add up. -/
theorem rotl5_rotl5 (h : KeyHalf) (m n : Nat) : rotl5 (rotl5 h m) n = rotl5 h (m + n) := by
  apply eq_of_bitAt_eq
  intro i h1 hi
  rw [bitAt_rotl5 _ n h1 hi, bitAt_rotl5 h m (by omega) (by omega), bitAt_rotl5 h (m + n) h1 hi]
  congr 1
  omega

/-- Five positions are a full turn. -/
theorem rotl5_five (h : KeyHalf) : rotl5 h 5 = h := by
  apply eq_of_bitAt_eq
  intro i h1 hi
  rw [bitAt_rotl5 h 5 h1 hi]
  congr 1
  omega

/-- Settles O45: by position, as a number, and by adding up the amounts of successive rotations. -/
theorem rotationOfAHalf : Obligations.RotationOfAHalf := by
  refine ⟨fun h n _ h1 hi => bitAt_rotl5 h n h1 hi, fun h n hn => toNat_rotl5 h (by omega),
    fun n => ⟨rotl5_zero n, rotl5_allOnes n⟩, fun h => ⟨?_, rotl5_rotl5 h 1 2⟩, by decide, by decide, by decide⟩
  calc rotl5 (rotl5 (rotl5 (rotl5 (rotl5 h 1) 1) 1) 1) 1
      = rotl5 h 5 := by simp only [rotl5_rotl5]
    _ = h := rotl5_five h

end Sys2Proof
end

section
/-! The rotation of a key-schedule state (`42_key_scheduler.md` rules R112, R115): each half by itself. -/

namespace Sys2Proof

open Machine

theorem slice_ls_left (s : Key) (n : Nat) : slice (ls s n) 1 5 = rotl5 (slice s 1 5) n :=
  slice_append_first _ _

theorem slice_ls_right (s : Key) (n : Nat) : slice (ls s n) 6 5 = rotl5 (slice s 6 5) n :=
  slice_append_second _ _

/-- A rotated half by position: the half that starts after position `o`. -/
theorem bitAt_of_slice_rotl5 {u s : Key} {n o : Nat} (turned : slice u (o + 1) 5 = rotl5 (slice s (o + 1) 5) n)
    (ho : o ≤ 5) {i : Nat} (h1 : 1 ≤ i) (hi : i ≤ 5) :
    bitAt u (i + o) = bitAt s ((i - 1 + n) % 5 + (o + 1)) := by
  have at_i := congrArg (bitAt · i) turned
  simp only [bitAt_rotl5 _ n h1 hi] at at_i
  rw [bitAt_slice _ _ 5 i (by omega) (by omega) h1 hi,
    bitAt_slice _ _ 5 _ (by omega) (by omega) (by omega) (by omega)] at at_i
  rwa [show o + 1 + i - 1 = i + o by omega,
    show o + 1 + ((i - 1 + n) % 5 + 1) - 1 = (i - 1 + n) % 5 + (o + 1) by omega] at at_i

theorem bitAt_ls_left (s : Key) (n : Nat) {i : Nat} (h1 : 1 ≤ i) (hi : i ≤ 5) :
    bitAt (ls s n) i = bitAt s ((i - 1 + n) % 5 + 1) :=
  bitAt_of_slice_rotl5 (o := 0) (slice_ls_left s n) (by decide) h1 hi

theorem bitAt_ls_right (s : Key) (n : Nat) {i : Nat} (h1 : 1 ≤ i) (hi : i ≤ 5) :
    bitAt (ls s n) (i + 5) = bitAt s ((i - 1 + n) % 5 + 6) :=
  bitAt_of_slice_rotl5 (o := 5) (slice_ls_right s n) (by decide) h1 hi

/-- Settles O46: the positions of each half of the rotated state, and the examples by evaluation. -/
theorem halvesRotateIndependently : Obligations.HalvesRotateIndependently :=
  ⟨fun s n _ h1 hi => ⟨bitAt_ls_left s n h1 hi, bitAt_ls_right s n h1 hi⟩,
    by decide, by decide, by decide, by decide⟩

/-- Amounts of successive rotations of a state add up. -/
theorem ls_ls (s : Key) (m n : Nat) : ls (ls s m) n = ls s (m + n) := by
  rw [ls, slice_ls_left, slice_ls_right, rotl5_rotl5, rotl5_rotl5, ls]

/-- Rule R115: relative to the P10 state, state B is rotated by 1 and then by 2. -/
theorem stateB_eq_ls_three (T : Tables) (key : Key) : stateB T key = ls (p10 T key) 3 :=
  ls_ls (p10 T key) 1 2

/-- Settles O48: the two rotations add up to 3, for every configuration; the two values of K2 by evaluation. -/
theorem stateBIsRotatedByThree : Obligations.StateBIsRotatedByThree :=
  ⟨fun T key => ⟨rfl, stateB_eq_ls_three T key⟩, by decide, by decide⟩

end Sys2Proof
end

section
/-! The key schedule (`42_key_scheduler.md` rules R113, R116): its steps, and which positions of the P10 state the subkeys
show. -/

namespace Sys2Proof

open Machine

/-- Settles O47: the steps are those of the definition; the values by evaluation. -/
theorem keyScheduleSteps : Obligations.KeyScheduleSteps :=
  ⟨fun _ _ => ⟨_, _, _, rfl, rfl, rfl, rfl⟩, by decide, by decide, by decide, by decide, by decide, by decide⟩

/-- The position of `s` that `LS(s, n)` has at position `p` of `1..10` (rule R112). -/
def lsSource (n p : Nat) : Nat :=
  if p ≤ 5 then (p - 1 + n) % 5 + 1 else (p - 6 + n) % 5 + 6

theorem bitAt_ls (s : Key) (n : Nat) {p : Nat} (h1 : 1 ≤ p) (hp : p ≤ 10) :
    bitAt (ls s n) p = bitAt s (lsSource n p) := by
  rw [lsSource]
  split
  case isTrue left => exact bitAt_ls_left s n h1 left
  case isFalse right =>
    obtain ⟨i, rfl⟩ : ∃ i, p = i + 5 := ⟨p - 5, by omega⟩
    exact bitAt_ls_right s n (by omega) (by omega)

/-- Two states rotated alike with the same subkey agree at the source of every position that P8 selects. -/
theorem bitAt_eq_of_p8_ls_eq {T : Tables} {s s' : Key} {n q : Nat} (same : p8 T (ls s n) = p8 T (ls s' n))
    (selected : q ∈ T.data.p8) : bitAt s (lsSource n q) = bitAt s' (lsSource n q) := by
  obtain ⟨hlength, hentries⟩ := permTableOk_iff.mp T.checks.p8
  obtain ⟨h1, hq⟩ := hentries q selected
  obtain ⟨i, hi1, hi, hentry⟩ := exists_position_of_mem selected
  have shown := congrArg (bitAt · i) same
  simp only [p8, bitAt_perm _ hi1 (hlength ▸ hi), hentry, bitAt_ls _ n h1 hq] at shown
  exact shown

/-- When every position of the P10 state shows in K1 (rotated by 1) or in K2 (rotated by 3), the subkeys determine the
key. -/
theorem ks_injective {T : Tables}
    (covers : List.range' 1 10 ⊆ T.data.p8.map (lsSource 1) ++ T.data.p8.map (lsSource 3)) :
    Function.Injective (ks T) := by
  intro k k' same
  obtain ⟨same1, same2⟩ := Prod.mk.inj same
  rw [stateB_eq_ls_three, stateB_eq_ls_three] at same2
  apply perm_injective T.checks.p10 T.checks.p10_all
  apply eq_of_bitAt_eq
  intro p h1 hp
  have shows := covers (List.mem_range'_1.mpr ⟨h1, by omega⟩)
  simp only [List.mem_append, List.mem_map] at shows
  obtain ⟨q, selected, rfl⟩ | ⟨q, selected, rfl⟩ := shows
  · exact bitAt_eq_of_p8_ls_eq same1 selected
  · exact bitAt_eq_of_p8_ls_eq same2 selected

/-- Settles O49: with `TABLES_STD` K1 shows eight positions of the P10 state and K2 the other two. -/
theorem keyScheduleIsInjective : Obligations.KeyScheduleIsInjective :=
  fun _ _ same => ks_injective (by decide) same

end Sys2Proof
end

section
/-! The round function in its six steps (`43_round_function.md` rules R126 to R132): the values of a block's halves and of
two joined box outputs. -/

namespace Sys2Proof

open Machine

/-- The first half of a block is its high half (rule R128). -/
theorem toNat_slice_high (x : Block) : (slice x 1 4).toNat = x.toNat >>> 4 := by
  rw [slice, BitVec.extractLsb'_toNat]
  exact Nat.mod_eq_of_lt (by rw [Nat.shiftRight_eq_div_pow]; omega)

/-- The second half of a block is its low half (rule R128). -/
theorem toNat_slice_low (x : Block) : (slice x 5 4).toNat = x.toNat &&& 0xF :=
  (BitVec.extractLsb'_toNat ..).trans (Nat.and_two_pow_sub_one_eq_mod x.toNat 4).symm

/-- `a || b` has `a` above the `n` wires of `b` (rule R130 at `n = 2`). -/
theorem toNat_append_eq_mul_add {m n : Nat} (a : BitVec m) (b : BitVec n) :
    (a ++ b).toNat = 2 ^ n * a.toNat + b.toNat := by
  rw [BitVec.toNat_append, ← Nat.shiftLeft_add_eq_or_of_lt b.isLt, Nat.shiftLeft_eq, Nat.mul_comm]

/-- Settles O53: the witnesses are the values that `mixed`, `substituted` and `roundF` pass on, with the bit and integer
forms above; the corner cases and the worked example by evaluation. -/
theorem roundFunctionSteps : Obligations.RoundFunctionSteps :=
  ⟨fun T R SK => ⟨ep T R, mixed T R SK, _, _, _, _, substituted T (mixed T R SK), rfl, rfl,
      fun p _ _ => bitAt_xor (ep T R) SK p, toNat_slice_high _, toNat_slice_low _, rfl, rfl,
      toNat_append_eq_mul_add _ _, rfl⟩,
    by decide⟩

end Sys2Proof
end

section
/-! The Feistel network (`44_feistel_core.md` rules R140 to R150): the rounds undo each other, so the network with its two
subkeys exchanged undoes itself. -/

namespace Sys2Proof

open Machine

@[simp] theorem splitBlock_joinBlock (T : Tables) (h : Halves) : splitBlock T (joinBlock T h) = h := by
  simp [splitBlock, joinBlock, slice_append_left, slice_append_right]

@[simp] theorem joinBlock_splitBlock (T : Tables) (b : Block) : joinBlock T (splitBlock T b) = b := by
  simp [splitBlock, joinBlock, append_slices]

/-- A round without the swap is its own inverse: the half that F reads is kept, and the other is xored twice. -/
@[simp] theorem round2_round2 (T : Tables) (sk : Subkey) (h : Halves) : round2 T sk (round2 T sk h) = h := by
  simp [round2]

/-- A round with the swap is a round without it, and then the swap. -/
theorem round1_eq_swap_round2 (T : Tables) (sk : Subkey) (h : Halves) : round1 T sk h = (round2 T sk h).swap := rfl

/-- The same network with its subkeys exchanged is its inverse (rules R145, R146, R148). -/
@[simp] theorem feistel_feistel (T : Tables) (ska skb : Subkey) (b : Block) :
    feistel T (feistel T b ska skb) skb ska = b := by
  simp only [feistel, splitBlock_joinBlock, round1_eq_swap_round2, round2_round2, Prod.swap_swap, joinBlock_splitBlock]

/-- The worked example of rule R140, stage by stage. -/
theorem feistel_worked_example : feistel tablesStd 0b10101010#8 0b10100100#8 0b01000011#8 = 0b10001101#8 := by
  have stage1 : splitBlock tablesStd 0b10101010#8 = (0b0011#4, 0b0011#4) := by decide
  have stage2 : round1 tablesStd 0b10100100#8 (0b0011#4, 0b0011#4) = (0b0011#4, 0b0110#4) := by decide
  have stage3 : round2 tablesStd 0b01000011#8 (0b0011#4, 0b0110#4) = (0b0101#4, 0b0110#4) := by decide
  have stage4 : joinBlock tablesStd (0b0101#4, 0b0110#4) = 0b10001101#8 := by decide
  rw [feistel, stage1, stage2, stage3, stage4]

/-- Settles O38: the witnesses are the halves that the stages pass on; the values of the worked example by evaluation. -/
theorem feistelStages : Obligations.FeistelStages :=
  ⟨fun T b _ _ => ⟨_, _, _, _, _, _, append_slices (ip T b), rfl, rfl, rfl, rfl, rfl⟩,
    by decide, by decide, by decide, by decide, feistel_worked_example⟩

theorem decrypt_encrypt (T : Tables) (k1 k2 : Subkey) (b : Block) : decrypt T k1 k2 (encrypt T k1 k2 b) = b :=
  feistel_feistel T k1 k2 b

theorem encrypt_decrypt (T : Tables) (k1 k2 : Subkey) (b : Block) : encrypt T k1 k2 (decrypt T k1 k2 b) = b :=
  feistel_feistel T k2 k1 b

/-- Settles O34, for the subkeys of the key. -/
theorem roundTrip : Obligations.RoundTrip :=
  fun T _ P => ⟨decrypt_encrypt T _ _ P, encrypt_decrypt T _ _ P⟩

/-- Settles O36: two functions that undo each other are bijections. -/
theorem encryptionIsABijection : Obligations.EncryptionIsABijection := by
  intro T key
  have undoes : Function.LeftInverse (decryptUnder T key) (encryptUnder T key) := fun P => (roundTrip T key P).1
  have undone : Function.RightInverse (decryptUnder T key) (encryptUnder T key) := fun P => (roundTrip T key P).2
  exact ⟨⟨undoes.injective, undone.surjective⟩, ⟨undone.injective, undoes.surjective⟩, undoes, undone⟩

end Sys2Proof
end

section
/-! The round trip through the commands (`44_feistel_core.md` rule R148, `45_commands.md` rules R161 to R163): what a
command does in a core that is not faulted, and in a core with a key loaded. -/

namespace Sys2Proof

open Machine

/-- A step that takes the word of a command runs that command. -/
theorem stepWith_encode (T : Tables) {s : State} {i : Instr} {rest : List HostEvent}
    (taken : s.hostIn = .command (encode i) :: rest) : stepWith T s = execWith T i { s with hostIn := rest } :=
  (takeEvent_command taken _).trans (accept_legal (decode_encode i) _ _)

/-! One rule per command, in a core that is not faulted (ENC and DEC with a key loaded). -/

theorem execWith_loadkey (T : Tables) (k : Key) {s : State} (normal : s.faulted = none) :
    execWith T (.loadkey k) s = .next (respond .ack (writeKeyRegs ⟨k, (ks T k).1, (ks T k).2⟩ s)) :=
  congrArg _ (unlessFaulted_of_none normal _)

theorem execWith_enc (T : Tables) (b : Block) {s : State} {r : KeyRegs} (normal : s.faulted = none)
    (keyed : s.regs = some r) :
    execWith T (.enc b) s = .next (respond (.data (encrypt T r.k1 r.k2 b)) s) :=
  congrArg _ ((unlessFaulted_of_none normal _).trans (withSubkeys_of_some keyed _))

theorem execWith_dec (T : Tables) (b : Block) {s : State} {r : KeyRegs} (normal : s.faulted = none)
    (keyed : s.regs = some r) :
    execWith T (.dec b) s = .next (respond (.data (decrypt T r.k1 r.k2 b)) s) :=
  congrArg _ ((unlessFaulted_of_none normal _).trans (withSubkeys_of_some keyed _))

/-- LOADKEY and then ENC, in a core that is not faulted. -/
theorem runWith_loadkey_enc (T : Tables) {s : State} {k : Key} {b : Block} {rest : List HostEvent}
    (normal : s.faulted = none) (presented : s.hostIn = present [.loadkey k, .enc b] ++ rest) :
    runWith T 2 s = .next { s with
      regs := some ⟨k, (ks T k).1, (ks T k).2⟩, hostIn := rest
      responses := s.responses ++ [.ack, .data (encryptUnder T k b)] } := by
  have loads := (stepWith_encode T presented).trans (execWith_loadkey T k normal)
  have encrypts := execWith_enc T b
    (s := respond .ack (writeKeyRegs ⟨k, (ks T k).1, (ks T k).2⟩ { s with hostIn := rest })) normal rfl
  rw [runWith_succ loads 1, runWith_succ ((stepWith_encode T rfl).trans encrypts) 0, runWith_zero]
  simp [respond, writeKeyRegs, encryptUnder]

/-- Settles O35: the block that ENC returns is the encryption under `k`, and DEC with the same registers undoes it. -/
theorem roundTripThroughCommands : Obligations.RoundTripThroughCommands := by
  intro T s k b rest hs presented
  refine ⟨encryptUnder T k b, runWith_loadkey_enc T ((fault_eq_false_iff s).mp hs) presented, ?_⟩
  intro u more hu keyed presented
  have normal : u.faulted = none := (fault_eq_false_iff u).mp hu
  have decrypts := execWith_dec T (encryptUnder T k b) (s := { u with hostIn := more }) normal keyed
  rw [encryptUnder, decrypt_encrypt] at decrypts
  exact (stepWith_encode T presented).trans decrypts

end Sys2Proof
end

section
/-! Equal subkeys (`44_feistel_core.md` rule R151): which positions of the key the two subkeys show, and the keys of
`TABLES_STD` that show the same in both. -/

namespace Sys2Proof

open Machine

theorem lsSource_bounds (n p : Nat) : 1 ≤ lsSource n p ∧ lsSource n p ≤ 10 := by
  unfold lsSource
  split <;> omega

/-- The position of the key at position `i` of the subkey that P8 takes from the P10 state rotated by `n`. -/
def subkeySource (T : Tables) (n i : Nat) : Nat :=
  T.data.p10.getD (lsSource n (T.data.p8.getD (i - 1) 0) - 1) 0

theorem bitAt_subkey (T : Tables) (key : Key) (n : Nat) {i : Nat} (h1 : 1 ≤ i) (hi : i ≤ 8) :
    bitAt (p8 T (ls (p10 T key) n)) i = bitAt key (subkeySource T n i) := by
  obtain ⟨hq1, hq⟩ := entry_bounds T.checks.p8 h1 hi
  obtain ⟨hp1, hp⟩ := lsSource_bounds n (T.data.p8.getD (i - 1) 0)
  rw [p8, bitAt_perm _ h1 hi, bitAt_ls _ n hq1 hq, p10, bitAt_perm _ hp1 hp, subkeySource]

/-- With equal subkeys the key has the same bit wherever K1 (rotated by 1) and K2 (rotated by 3) show it at one position. -/
theorem bitAt_eq_of_subkeys_eq {T : Tables} {key : Key} (same : (ks T key).1 = (ks T key).2) {i : Nat} (h1 : 1 ≤ i)
    (hi : i ≤ 8) : bitAt key (subkeySource T 1 i) = bitAt key (subkeySource T 3 i) := by
  rw [← bitAt_subkey T key 1 h1 hi, ← bitAt_subkey T key 3 h1 hi, ← stateB_eq_ls_three]
  exact congrArg (bitAt · i) same

/-- The key with the first bit of `v` at positions 1, 6, 8, 9 and 10, the second at 2, 3 and 7, and the third at 4 and 5:
the three groups of positions that equal subkeys tie together under `TABLES_STD`. -/
def tiedKey (v : BitVec 3) : Key := perm [1, 2, 2, 3, 3, 1, 2, 1, 1, 1] 3 10 v

/-- Equal subkeys tie each position of the key to 1, 2 or 4, the first of its group. -/
theorem eq_tiedKey_of_subkeys_eq {key : Key} (same : (ks tablesStd key).1 = (ks tablesStd key).2) :
    key = tiedKey (perm [1, 2, 4] 10 3 key) := by
  have tie (i : Nat) (h1 : 1 ≤ i) (hi : i ≤ 8) := bitAt_eq_of_subkeys_eq same h1 hi
  have tie1 : bitAt key 1 = bitAt key 8 := tie 1 (by decide) (by decide)
  have tie2 : bitAt key 7 = bitAt key 3 := tie 2 (by decide) (by decide)
  have tie3 : bitAt key 9 = bitAt key 6 := tie 3 (by decide) (by decide)
  have tie4 : bitAt key 4 = bitAt key 5 := tie 4 (by decide) (by decide)
  have tie5 : bitAt key 8 = bitAt key 10 := tie 5 (by decide) (by decide)
  have tie6 : bitAt key 3 = bitAt key 2 := tie 6 (by decide) (by decide)
  have tie7 : bitAt key 10 = bitAt key 9 := tie 7 (by decide) (by decide)
  apply eq_of_bitAt_eq
  intro p h1 hp
  rw [tiedKey, bitAt_perm _ h1 hp]
  interval_cases p <;> rw [bitAt_perm _ (by decide) (by decide)] <;> simp [*]

/-- Settles O37: with equal subkeys the two transforms are the same network, which undoes itself; the keys with equal
subkeys are the tied ones, one for each three bits. -/
theorem equalSubkeysGiveAnInvolution : Obligations.EqualSubkeysGiveAnInvolution := by
  refine ⟨fun T x b => ⟨rfl, feistel_feistel T x x b⟩, fun key => ⟨fun same => ?_, ?_⟩⟩
  · rw [eq_tiedKey_of_subkeys_eq same]
    generalize perm [1, 2, 4] 10 3 key = v
    revert v
    decide
  · revert key
    decide

end Sys2Proof
end

section
/-! The step function (`45_commands.md` rule R160): a step runs the command it decodes, and no run stops. -/

namespace Sys2Proof

open Machine

/-- Settles O8: the step takes the word, and a legal word is run as its command. -/
theorem stepRunsDecodedCommand : Obligations.StepRunsDecodedCommand :=
  fun _ _ _ _ taken decoded => (takeEvent_command taken _).trans (accept_legal decoded _ _)

/-- Settles O10, by induction on the number of steps: each answers a next state. -/
theorem runNeverStops : Obligations.RunNeverStops := by
  intro T n s
  induction n generalizing s with
  | zero => exact ⟨s, runWith_zero T s⟩
  | succ n ih =>
    obtain ⟨u, hu⟩ := stepWith_next T s
    rw [runWith_succ hu]
    exact ih u

end Sys2Proof
end

section
/-! The three commands apart from their effect with a key loaded (`45_commands.md` rules R161 to R163): a faulted core,
a core with no key, the words by value; and the values of the rules' examples. -/

namespace Sys2Proof

open Machine

/-- A faulted core answers any legal command with the fault it has taken. -/
theorem execWith_faulted (T : Tables) (i : Instr) {s : State} {c : FaultKind} (faulted : s.faulted = some c) :
    execWith T i s = .next (answerFaulted c s) := by
  cases i <;> exact congrArg _ (unlessFaulted_of_some faulted _)

theorem kv_eq_false_iff (s : State) : s.kv = false ↔ s.regs = none :=
  Option.isSome_eq_false_iff.trans Option.isNone_iff_eq_none

/-- A block command in the normal condition with no key loaded raises NOKEY. -/
theorem execWith_block_unkeyed (T : Tables) {i : Instr} {b : Block} (isBlock : i = .enc b ∨ i = .dec b) {s : State}
    (normal : s.faulted = none) (unkeyed : s.regs = none) : execWith T i s = .next (raiseFault .noKey s) := by
  rcases isBlock with rfl | rfl <;>
    exact congrArg _ ((unlessFaulted_of_none normal _).trans (withSubkeys_of_none unkeyed _))

/-- The value of the word of a block command: the operation code above wire 10, the block below wire 8. -/
theorem toNat_blockWord (op : BitVec 2) (b : Block) : (blockWord op b).toNat = 0x400 * op.toNat + b.toNat := by
  rw [blockWord, toNat_append_eq_mul_add, toNat_append_eq_mul_add]
  simp [← Nat.mul_assoc]

/-- Writing the key held and its key schedule leaves the registers as they are. -/
theorem writeKeyRegs_of_keysDerived {T : Tables} {s : State} {r : KeyRegs} (derived : KeysDerived T s)
    (keyed : s.regs = some r) : writeKeyRegs ⟨r.key, (ks T r.key).1, (ks T r.key).2⟩ s = s := by
  obtain ⟨hk1, hk2⟩ := derived r keyed
  rw [← hk1, ← hk2, writeKeyRegs, ← keyed]

/-- The value of the network from the values that its four stages pass on (rules R141 to R144). -/
theorem feistel_of_stages {T : Tables} {b c : Block} {ska skb : Subkey} {h0 h1 h2 : Halves}
    (stage1 : splitBlock T b = h0) (stage2 : round1 T ska h0 = h1) (stage3 : round2 T skb h1 = h2)
    (stage4 : joinBlock T h2 = c) : feistel T b ska skb = c := by
  rw [feistel, stage1, stage2, stage3, stage4]

/-! The example key of the rules, the example block of rules R162 and R163, and the two encryptions of rule R164. -/

theorem ks_worked_example : ks tables 0b1010000010#10 = (0b10100100#8, 0b01000011#8) := by decide

theorem ks_second_example : ks tables 0b1100011110#10 = (0b11101001#8, 0b10100111#8) := by decide

theorem feistel_worked_example_back : feistel tables 0b10001101#8 0b01000011#8 0b10100100#8 = 0b10101010#8 := by
  rw [tables, ← feistel_worked_example, feistel_feistel]

theorem encryptUnder_first_key : encryptUnder tables 0b1010000010#10 0b01000001#8 = 0b00010101#8 := by
  rw [encryptUnder, ks_worked_example]
  exact feistel_of_stages (h0 := (0b1000#4, 0b0100#4)) (h1 := (0b0100#4, 0b1100#4)) (h2 := (0b0100#4, 0b1100#4))
    (by decide) (by decide) (by decide) (by decide)

theorem encryptUnder_second_key : encryptUnder tables 0b1100011110#10 0b01000001#8 = 0b01001100#8 := by
  rw [encryptUnder, ks_second_example]
  exact feistel_of_stages (h0 := (0b1000#4, 0b0100#4)) (h1 := (0b0100#4, 0b0010#4)) (h2 := (0b1100#4, 0b0010#4))
    (by decide) (by decide) (by decide) (by decide)

end Sys2Proof
end

section
/-! The meanings of the three commands, clause by clause (`45_commands.md` rules R161 to R163). -/

namespace Sys2Proof

open Machine

/-- Settles O13: the rule of LOADKEY in the normal condition, and that of any command in a faulted core. -/
theorem loadkeyMeaning : Obligations.LoadkeyMeaning := by
  rw [Obligations.LoadkeyMeaning, exec_eq_execWith_tables]
  refine ⟨fun k s hs => execWith_loadkey tables k ((fault_eq_false_iff s).mp hs),
    fun k s c faulted => execWith_faulted tables _ faulted, toNat_encode_loadkey, fun s r hs keyed derived => ?reload,
    ?worked, by decide⟩
  case reload =>
    rw [execWith_loadkey tables r.key ((fault_eq_false_iff s).mp hs), writeKeyRegs_of_keysDerived derived keyed]
    rfl
  case worked =>
    rw [execWith_loadkey tables _ rfl, ks_worked_example]
    rfl

/-- Settles O14: the rules of ENC with a key and of a block command with none; an over-wide word is illegal. -/
theorem encMeaning : Obligations.EncMeaning := by
  rw [Obligations.EncMeaning, exec_eq_execWith_tables]
  refine ⟨fun b s r hs keyed => execWith_enc tables b ((fault_eq_false_iff s).mp hs) keyed,
    fun b s hs hkv =>
      execWith_block_unkeyed tables (.inl rfl) ((fault_eq_false_iff s).mp hs) ((kv_eq_false_iff s).mp hkv),
    fun w s rest hs taken hop hwide =>
      illegalWordsRaiseIllegalCmd.2 s w rest taken hs ⟨_, decode_of_overWide (.inl hop) hwide⟩,
    toNat_blockWord 0b10#2, fun s hs keyed => ?worked, by decide⟩
  case worked =>
    rw [execWith_enc tables _ ((fault_eq_false_iff s).mp hs) keyed, encrypt, tables, feistel_worked_example]
    rfl

/-- Settles O15: the rules of DEC with a key and of a block command with none; an over-wide word is illegal; the network
with its subkeys exchanged undoes itself. -/
theorem decMeaning : Obligations.DecMeaning := by
  rw [Obligations.DecMeaning, exec_eq_execWith_tables]
  refine ⟨fun b s r hs keyed => execWith_dec tables b ((fault_eq_false_iff s).mp hs) keyed,
    fun b s hs hkv =>
      execWith_block_unkeyed tables (.inr rfl) ((fault_eq_false_iff s).mp hs) ((kv_eq_false_iff s).mp hkv),
    fun w s rest hs taken hop hwide =>
      illegalWordsRaiseIllegalCmd.2 s w rest taken hs ⟨_, decode_of_overWide (.inr hop) hwide⟩,
    toNat_blockWord 0b11#2, fun k1 k2 b => feistel_feistel tables k1 k2 b, fun s hs keyed => ?worked, by decide⟩
  case worked =>
    rw [execWith_dec tables _ ((fault_eq_false_iff s).mp hs) keyed, decrypt, feistel_worked_example_back]
    rfl

end Sys2Proof
end

section
/-! Block commands in sequence (`45_commands.md` rules R164, R170): a stream in a core that holds a key, and a stream
after a LOADKEY. -/

namespace Sys2Proof

open Machine

/-- A core in the normal condition that holds the registers `r` answers each command `cmd b` with the block `f b`, and
changes nothing else. -/
def AnswersBlocks (T : Tables) (r : KeyRegs) (cmd : Block → Instr) (f : Block → Block) : Prop :=
  ∀ (b : Block) (s : State), s.faulted = none → s.regs = some r →
    execWith T (cmd b) s = .next (respond (.data (f b)) s)

theorem answersBlocks_enc (T : Tables) (r : KeyRegs) : AnswersBlocks T r .enc (encrypt T r.k1 r.k2) :=
  fun b _ => execWith_enc T b

theorem answersBlocks_dec (T : Tables) (r : KeyRegs) : AnswersBlocks T r .dec (decrypt T r.k1 r.k2) :=
  fun b _ => execWith_dec T b

/-- A stream of block commands is one response each, in order, and changes nothing else. -/
theorem runWith_stream {T : Tables} {r : KeyRegs} {cmd : Block → Instr} {f : Block → Block}
    (answers : AnswersBlocks T r cmd f) (s : State) (normal : s.faulted = none) (keyed : s.regs = some r)
    (bs : List Block) (rest : List HostEvent) :
    runWith T bs.length (setHostIn (present (bs.map cmd) ++ rest) s) =
      .next { s with hostIn := rest, responses := s.responses ++ bs.map (fun b => .data (f b)) } := by
  induction bs generalizing s with
  | nil => simp [runWith_zero, setHostIn]
  | cons b bs ih =>
    have first : stepWith T (setHostIn (present ((b :: bs).map cmd) ++ rest) s) =
        .next (setHostIn (present (bs.map cmd) ++ rest) (respond (.data (f b)) s)) :=
      (stepWith_encode T rfl).trans (answers b _ normal keyed)
    rw [List.length_cons, runWith_succ first, ih (respond _ s) normal keyed]
    simp

/-- Settles O33, for ENC and for DEC. -/
theorem streamIsOneBlockPerByte : Obligations.StreamIsOneBlockPerByte := fun T s r bs rest hs keyed =>
  have normal : s.faulted = none := (fault_eq_false_iff s).mp hs
  ⟨runWith_stream (answersBlocks_enc T r) s normal keyed bs rest,
    runWith_stream (answersBlocks_dec T r) s normal keyed bs rest⟩

/-- A LOADKEY and then a stream, whatever the key registers held: the stream is answered under the new key. -/
theorem runWith_loadkey_stream {T : Tables} {k : Key} {cmd : Block → Instr} {f : Block → Block}
    (answers : AnswersBlocks T ⟨k, (ks T k).1, (ks T k).2⟩ cmd f) (s : State) (normal : s.faulted = none)
    (bs : List Block) (rest : List HostEvent) :
    runWith T (bs.length + 1) (setHostIn (present (.loadkey k :: bs.map cmd) ++ rest) s) = .next { s with
      regs := some ⟨k, (ks T k).1, (ks T k).2⟩, hostIn := rest
      responses := s.responses ++ .ack :: bs.map (fun b => .data (f b)) } := by
  have loads : stepWith T (setHostIn (present (.loadkey k :: bs.map cmd) ++ rest) s) = .next
      (setHostIn (present (bs.map cmd) ++ rest) (respond .ack (writeKeyRegs ⟨k, (ks T k).1, (ks T k).2⟩ s))) :=
    (stepWith_encode T rfl).trans (execWith_loadkey T k normal)
  rw [runWith_succ loads, runWith_stream answers (respond .ack (writeKeyRegs _ s)) normal rfl]
  simp

/-- A block command keeps the key registers. -/
theorem execWith_block_regs {T : Tables} {i : Instr} {b : Block} (isBlock : i = .enc b ∨ i = .dec b) {s t : State}
    (h : execWith T i s = .next t) : t.regs = s.regs := by
  rcases execWith_writes T i s with ⟨r, hexec⟩ | ⟨-, k, r, isLoadkey, -⟩ | ⟨-, -, -, hexec⟩
  · cases hexec.symm.trans h
    rfl
  · exact absurd isLoadkey (ne_loadkey_of_block isBlock k)
  · cases hexec.symm.trans h
    rfl

theorem runMachine_eq_runWith_tables (n : Nat) (s : State) : runMachine n s = runWith tables n s := by
  induction n generalizing s with
  | zero => rw [runMachine_zero, runWith_zero]
  | succ n ih =>
    obtain ⟨u, hu⟩ := stepWith_next tables s
    rw [runWith_succ hu, ← ih u]
    exact runMachine_succ ((congrFun step_eq_stepWith_tables s).trans hu) n

/-- The example of rule R164: one block under two keys, from reset. -/
theorem rekeying_example :
    runMachine 4 { State.reset with
        hostIn := present
          [.loadkey 0b1010000010#10, .enc 0b01000001#8, .loadkey 0b1100011110#10, .enc 0b01000001#8] } =
      .next { State.reset with
        regs := some ⟨0b1100011110#10, 0b11101001#8, 0b10100111#8⟩
        responses := [.ack, .data 0b00010101#8, .ack, .data 0b01001100#8] } := by
  rw [runMachine_eq_runWith_tables]
  refine ((runWith_add (m := 2) (runWith_loadkey_enc tables rfl rfl) 2).trans
    (runWith_loadkey_enc tables rfl rfl)).trans ?_
  rw [encryptUnder_first_key, encryptUnder_second_key, ks_second_example]
  rfl

/-- Settles O17: LOADKEY writes the registers unread, a stream of one block follows it, and block commands keep them. -/
theorem rekeyingForgetsTheOldKey : Obligations.RekeyingForgetsTheOldKey := by
  refine ⟨fun T k s old hs => execWith_loadkey T k (s := { s with regs := old }) ((fault_eq_false_iff s).mp hs),
    fun T k b s hs => ?_, fun T b s t h => ?_, rekeying_example⟩
  · have normal : s.faulted = none := (fault_eq_false_iff s).mp hs
    exact ⟨runWith_loadkey_stream (answersBlocks_enc T _) s normal [b] [],
      runWith_loadkey_stream (answersBlocks_dec T _) s normal [b] []⟩
  · rcases h with h | h
    · exact execWith_block_regs (.inl rfl) h
    · exact execWith_block_regs (.inr rfl) h

end Sys2Proof
end

section
/-! Faults (`60_exceptions.md` rules R183 to R185) and the idle core (rule R189). -/

namespace Sys2Proof

open Machine

/-- The value of the word of a Fault response: its kind above the payload, the code on the lowest two wires. -/
theorem toNat_fault_word (c : FaultKind) : (Response.fault c).toRsp.toNat = 0x200 + c.code.toNat := by
  cases c <;> decide

/-- Settles O20: the update itself, the flags read from its one field, and the word of each code. -/
theorem faultEntry : Obligations.FaultEntry :=
  ⟨fun c s => ⟨rfl, fault_of_some (raiseFault_faulted c s), fcode_of_some (raiseFault_faulted c s),
    raiseFault_regs c s, rfl, toNat_fault_word c⟩, rfl, rfl⟩

/-- A step with no host event presented keeps the state. -/
theorem step_idle {s : State} (idle : s.hostIn = []) : step s = .next s :=
  takeEvent_idle idle exec

/-- Settles O11, by induction on the number of steps: each is idle. -/
theorem idleCoreKeepsItsState : Obligations.IdleCoreKeepsItsState := by
  intro n s idle
  induction n with
  | zero => exact runMachine_zero s
  | succ n ih => rw [runMachine_succ (step_idle idle), ih]

/-- A faulted core answers any word, legal or not, with the fault it has taken. -/
theorem accept_faulted (T : Tables) (w : Cmd) {s : State} {c : FaultKind} (faulted : s.faulted = some c) :
    accept (execWith T) w s = .next (answerFaulted c s) := by
  cases hdecode : decode w with
  | legal i => rw [accept_legal hdecode, execWith_faulted T i faulted]
  | illegal why =>
    rw [accept_illegal hdecode]
    exact congrArg _ (unlessFaulted_of_some faulted _)

/-- The step of a faulted core that takes a word. -/
theorem step_command_faulted {s : State} {c : FaultKind} {w : Cmd} {rest : List HostEvent}
    (taken : s.hostIn = .command w :: rest) (faulted : s.faulted = some c) :
    step s = .next (answerFaulted c { s with hostIn := rest }) :=
  (step_command taken).trans (accept_faulted tables w faulted)

/-- The step that takes a block command in the normal condition with no key loaded. -/
theorem step_block_unkeyed {s : State} {w : Cmd} {b : Block} {rest : List HostEvent}
    (taken : s.hostIn = .command w :: rest) (normal : s.faulted = none) (unkeyed : s.regs = none)
    (isBlock : decode w = .legal (.enc b) ∨ decode w = .legal (.dec b)) :
    step s = .next (raiseFault .noKey { s with hostIn := rest }) := by
  rw [step_command taken]
  rcases isBlock with hdecode | hdecode <;> rw [accept_legal hdecode]
  · exact execWith_block_unkeyed tables (.inl rfl) normal unkeyed
  · exact execWith_block_unkeyed tables (.inr rfl) normal unkeyed

/-- A step of a faulted core that is no reset keeps the fault taken. -/
theorem step_keeps_fault {s t : State} {c : FaultKind} (h : step s = .next t) (faulted : s.faulted = some c)
    (noReset : ∀ e rest, s.hostIn = e :: rest → ¬ e.IsReset) : t.faulted = some c := by
  rw [step_eq_stepWith_tables] at h
  cases stepWith_effect h with
  | kept _ same => exact same.trans faulted
  | cleared _ _ taken isReset => exact absurd isReset (noReset _ _ taken)
  | loaded normal _ _ _ | raised normal _ _ _ => simp [faulted] at normal

/-- Settles O21: each check by the rule of its step; the word of the example has an over-wide block. -/
theorem faultPriority : Obligations.FaultPriority := by
  refine ⟨fun s c w rest taken faulted => step_command_faulted taken faulted,
    fun s w why rest taken hs hdecode => illegalWordsRaiseIllegalCmd.2 s w rest taken hs ⟨why, hdecode⟩,
    fun s w b rest taken hs hkv isBlock =>
      step_block_unkeyed taken ((fault_eq_false_iff s).mp hs) ((kv_eq_false_iff s).mp hkv) isBlock,
    illegalWordsRaiseIllegalCmd.2 _ 0x9AA#12 [] rfl rfl ⟨_, decode_of_overWide (.inl rfl) (by decide)⟩,
    fun s t h hs noReset => ?_⟩
  obtain ⟨c, faulted⟩ := (fault_eq_true_iff s).mp hs
  have after := step_keeps_fault h faulted noReset
  exact ⟨fault_of_some after, (fcode_of_some after).trans (fcode_of_some faulted).symm⟩

/-- Settles O22, by induction on the list of words: each is answered by the fault taken, which stays. -/
theorem faultedCoreAnswersFaultOnly : Obligations.FaultedCoreAnswersFaultOnly := by
  intro s c ws rest faulted presented
  induction ws generalizing s with
  | nil =>
    obtain rfl : s.hostIn = rest := presented
    simp [runMachine_zero]
  | cons w ws ih =>
    have first := step_command_faulted (rest := ws.map .command ++ rest) presented faulted
    have others := ih (answerFaulted c { s with hostIn := ws.map .command ++ rest }) faulted rfl
    rw [List.length_cons, runMachine_succ first, others]
    simp [List.replicate_succ]

end Sys2Proof
end

section
/-! Reset (`70_reset_and_hazards.md` rules R200, R201): what it does, alone or with a word in flight, and that no other
step clears `KV`, `FAULT` or `FCODE`. -/

namespace Sys2Proof

open Machine

/-- A step that takes a reset is the reset transition. -/
theorem stepWith_reset (T : Tables) {s : State} {rest : List HostEvent} (taken : s.hostIn = .reset :: rest) :
    stepWith T s = .next (resetCore { s with hostIn := rest }) :=
  takeEvent_reset taken _

/-- A step that takes a reset in flight is the reset transition too: the word is dropped. -/
theorem stepWith_resetInFlight (T : Tables) {s : State} {w : Cmd} {rest : List HostEvent}
    (taken : s.hostIn = .resetInFlight w :: rest) : stepWith T s = .next (resetCore { s with hostIn := rest }) :=
  takeEvent_resetInFlight taken _

/-- One of `KV`, `FAULT` and `FCODE` is set in `s` and clear in `t`. -/
def ClearsFlag (s t : State) : Prop :=
  (s.kv = true ∧ t.kv = false) ∨ (s.fault = true ∧ t.fault = false) ∨ (s.fcode ≠ 0#2 ∧ t.fcode = 0#2)

/-- In the normal condition `KV` alone is left to clear. -/
theorem ClearsFlag.kv_of_normal {s t : State} (h : ClearsFlag s t) (normal : s.faulted = none) :
    s.kv = true ∧ t.kv = false := by
  simpa [ClearsFlag, fault_of_none normal, fcode_of_none normal] using h

theorem kv_of_regs_eq {s t : State} (regs : t.regs = s.regs) : t.kv = s.kv := congrArg Option.isSome regs

/-- The flags are views of the key registers and the fault: keeping both clears none. -/
theorem not_clearsFlag_of_kept {s t : State} (regs : t.regs = s.regs) (faulted : t.faulted = s.faulted) :
    ¬ ClearsFlag s t := by
  have fault : t.fault = s.fault := congrArg Option.isSome faulted
  have fcode : t.fcode = s.fcode := by rw [State.fcode, State.fcode, faulted]
  rw [ClearsFlag, kv_of_regs_eq regs, fault, fcode]
  simp

/-- Of the four effects of a step, a reset alone clears a flag. -/
theorem CoreEffect.isReset_of_clearsFlag {T : Tables} {s t : State} (effect : CoreEffect T s t)
    (clears : ClearsFlag s t) : ∃ e rest, s.hostIn = e :: rest ∧ e.IsReset := by
  cases effect with
  | kept regs faulted => exact absurd clears (not_clearsFlag_of_kept regs faulted)
  | cleared _ _ taken isReset => exact ⟨_, _, taken, isReset⟩
  | loaded normal _ _ regs =>
    have hkv := (clears.kv_of_normal normal).2
    simp [kv_of_some regs] at hkv
  | raised normal regs _ _ =>
    have hkv := clears.kv_of_normal normal
    simp [kv_of_regs_eq regs] at hkv

/-- Settles O24: the reset transition itself, and the four effects of a step. -/
theorem resetTransition : Obligations.ResetTransition := by
  rw [Obligations.ResetTransition, step_eq_stepWith_tables]
  exact ⟨fun s rest taken => stepWith_reset tables taken, fun s t h => (stepWith_effect h).isReset_of_clearsFlag⟩

/-- Settles O25: both steps are the reset transition, which leaves the responses. -/
theorem resetInFlightDropsTheCommand : Obligations.ResetInFlightDropsTheCommand := by
  rw [Obligations.ResetInFlightDropsTheCommand, step_eq_stepWith_tables]
  intro s w rest
  have inFlight := stepWith_resetInFlight tables (s := { s with hostIn := .resetInFlight w :: rest }) rfl
  refine ⟨inFlight.trans (stepWith_reset tables (s := { s with hostIn := .reset :: rest }) rfl).symm, fun t h => ?_⟩
  cases inFlight.symm.trans h
  rfl

end Sys2Proof
end

section
/-! The order of bringing the core up (`70_reset_and_hazards.md` rule R203): once a key is loaded, commands run without a
fault; before that, a block command faults. -/

namespace Sys2Proof

open Machine

/-- A core in the normal condition with a key loaded. -/
structure Ready (s : State) : Prop where
  normal : s.faulted = none
  keyed : s.kv = true

/-- From `s` to `t` the responses `rs` were given, none of them a Fault. -/
structure Answered (s t : State) (rs : List Response) : Prop where
  responses : t.responses = s.responses ++ rs
  noFault : ∀ r ∈ rs, r.isFault = false

theorem Answered.trans {s t u : State} {rs qs : List Response} (h : Answered s t rs) (h' : Answered t u qs) :
    Answered s u (rs ++ qs) where
  responses := by rw [h'.responses, h.responses, List.append_assoc]
  noFault := List.forall_mem_append.mpr ⟨h.noFault, h'.noFault⟩

/-- A LOADKEY taken in the normal condition makes the core ready, with one Ack. -/
theorem stepWith_loadkey_ready (T : Tables) {s : State} {k : Key} {rest : List HostEvent} (normal : s.faulted = none)
    (taken : s.hostIn = .command (encode (.loadkey k)) :: rest) :
    ∃ t, stepWith T s = .next t ∧ Ready t ∧ t.hostIn = rest ∧ Answered s t [.ack] :=
  ⟨_, (stepWith_encode T taken).trans (execWith_loadkey T k normal), ⟨normal, rfl⟩, rfl, rfl,
    by simp [Response.isFault]⟩

/-- A ready core that takes any legal command answers without a fault and stays ready. -/
theorem stepWith_ready (T : Tables) {s : State} {i : Instr} {rest : List HostEvent} (ready : Ready s)
    (taken : s.hostIn = .command (encode i) :: rest) :
    ∃ t r, stepWith T s = .next t ∧ Ready t ∧ t.hostIn = rest ∧ Answered s t [r] := by
  obtain ⟨r, keyed⟩ := Option.isSome_iff_exists.mp ready.keyed
  have stays (b : Block) : Ready (respond (.data b) { s with hostIn := rest }) := ⟨ready.normal, ready.keyed⟩
  have answers (b : Block) : Answered s (respond (.data b) { s with hostIn := rest }) [.data b] :=
    ⟨rfl, by simp [Response.isFault]⟩
  have runs := stepWith_encode T taken
  cases i with
  | loadkey k =>
    obtain ⟨t, loaded⟩ := stepWith_loadkey_ready T ready.normal taken
    exact ⟨t, _, loaded⟩
  | enc b => exact ⟨_, _, runs.trans (execWith_enc T b ready.normal keyed), stays _, rfl, answers _⟩
  | dec b => exact ⟨_, _, runs.trans (execWith_dec T b ready.normal keyed), stays _, rfl, answers _⟩

/-- A ready core runs any list of commands without a fault, one response each, and stays ready. -/
theorem runWith_present_ready (T : Tables) (is : List Instr) (rest : List HostEvent) {s : State} (ready : Ready s)
    (presented : s.hostIn = present is ++ rest) :
    ∃ t rs, runWith T is.length s = .next t ∧ Ready t ∧ t.hostIn = rest ∧ rs.length = is.length ∧
      Answered s t rs := by
  induction is generalizing s with
  | nil => exact ⟨s, [], runWith_zero T s, ready, presented, rfl, by simp, by simp⟩
  | cons i is ih =>
    obtain ⟨u, r, hstep, readyU, hin, first⟩ := stepWith_ready T ready presented
    obtain ⟨t, rs, hrun, readyT, hrest, hlength, others⟩ := ih readyU hin
    exact ⟨t, r :: rs, (runWith_succ hstep is.length).trans hrun, readyT, hrest, congrArg (· + 1) hlength,
      first.trans others⟩

/-- Settles O26: reset leaves the normal condition, in which LOADKEY makes the core ready and a block command raises
NOKEY. -/
theorem faultFreeAfterBoot : Obligations.FaultFreeAfterBoot := by
  refine ⟨fun T s k is rest taken => ?keyed, fun T s b i rest isBlock taken => ?unkeyed⟩
  case keyed =>
    obtain ⟨u, hstep, ready, hin, acked⟩ := stepWith_loadkey_ready T (k := k) (rest := present is ++ rest)
      (s := resetCore { s with hostIn := present (.loadkey k :: is) ++ rest }) rfl rfl
    obtain ⟨t, rs, hrun, ⟨normal, keyed⟩, hrest, hlength, answered⟩ := runWith_present_ready T is rest ready hin
    have all := acked.trans answered
    refine ⟨t, .ack :: rs, ?_, fault_of_none normal, keyed, hrest, all.responses, congrArg (· + 1) hlength,
      all.noFault⟩
    rw [runWith_succ (stepWith_reset T taken), runWith_succ hstep, hrun]
  case unkeyed =>
    have raises := execWith_block_unkeyed T isBlock (s := resetCore { s with hostIn := rest }) rfl rfl
    exact (runWith_succ (stepWith_reset T taken) 1).trans (runWith_succ ((stepWith_encode T rfl).trans raises) 0)

end Sys2Proof
end

section
/-! The values STATUS can show (`95_test_vectors.md` section 3.7). -/

namespace Sys2Proof

open Machine

theorem status_of_normal {s : State} (normal : s.faulted = none) : s.status = if s.kv then 0b0001#4 else 0b0000#4 := by
  rw [State.status, fault_of_none normal, fcode_of_none normal]
  cases s.kv <;> rfl

theorem status_of_faulted {s : State} {c : FaultKind} (faulted : s.faulted = some c) :
    s.status = c.code ++ (BitVec.ofBool true ++ BitVec.ofBool s.kv) := by
  rw [State.status, fault_of_some faulted, fcode_of_some faulted]

/-- Settles O30, by the fault taken: after NOKEY the invariant leaves no key loaded. -/
theorem statusValues : Obligations.StatusValues := by
  intro T s hinv
  have unkeyed := ((inv_iff T s).mp hinv).2
  rcases hf : s.faulted with _ | _ | _
  case none =>
    rw [status_of_normal hf]
    cases s.kv <;> decide
  case some.noKey =>
    rw [status_of_faulted hf, kv_of_none (unkeyed hf)]
    decide
  case some.illegalCmd =>
    rw [status_of_faulted hf]
    cases s.kv <;> decide

end Sys2Proof
end

section
/-! The sample words and the cipher's values (`95_test_vectors.md` sections 3.6 and 3.7). -/

namespace Sys2Proof

open Machine

/-- Settles O6: a legal sample word is the encoding of its command, an illegal one falls under its reason by its fields. -/
theorem sampleWordsDecode : Obligations.SampleWordsDecode :=
  ⟨decode_encode (.loadkey 0b1010000010#10), decode_encode (.loadkey 0#10), decode_encode (.loadkey 0x3FF#10),
    decode_encode (.enc 0b10101010#8), decode_encode (.enc 0xFF#8),
    decode_encode (.dec 0b10001101#8), decode_encode (.dec 0xFF#8),
    decode_of_reservedOp (by decide), decode_of_reservedOp (by decide),
    decode_of_overWide (.inl (by decide)) (by decide), decode_of_overWide (.inl (by decide)) (by decide),
    decode_of_overWide (.inr (by decide)) (by decide), decode_of_overWide (.inr (by decide)) (by decide)⟩

/-- An encryption from the subkeys of its key and the halves that the stages pass on: the columns `L0 R0`, `L1 R1`, `L2 R2`
of the table of section 3.6. -/
theorem encryptUnder_of_trace {T : Tables} {key : Key} {k1 k2 : Subkey} {b c : Block} (subkeys : ks T key = (k1, k2))
    (h0 h1 h2 : Halves)
    (trace : splitBlock T b = h0 ∧ round1 T k1 h0 = h1 ∧ round2 T k2 h1 = h2 ∧ joinBlock T h2 = c) :
    encryptUnder T key b = c := by
  obtain ⟨stage1, stage2, stage3, stage4⟩ := trace
  rw [encryptUnder, subkeys]
  exact feistel_of_stages stage1 stage2 stage3 stage4

/-- A decryption from the encryption that it undoes. -/
theorem decryptUnder_of_encryptUnder {T : Tables} {key : Key} {b c : Block} (h : encryptUnder T key b = c) :
    decryptUnder T key c = b := by
  rw [← h, (roundTrip T key b).1]

/-! The subkeys of the keys of section 3.6 that the rules' own examples do not give. -/

theorem ks_zeros : ks tablesStd 0b0000000000#10 = (0x00#8, 0x00#8) := by decide

theorem ks_ones : ks tablesStd 0b1111111111#10 = (0xFF#8, 0xFF#8) := by decide

theorem ks_key_0111111101 : ks tablesStd 0b0111111101#10 = (0b01011111#8, 0b11111100#8) := by decide

theorem ks_key_0010010111 : ks tablesStd 0b0010010111#10 = (0b00101111#8, 0b11101010#8) := by decide

/-- Settles O39: the encryptions by their traces, the decryptions by the encryptions that they undo. -/
theorem cipherTraces : Obligations.CipherTraces := by
  have encAA : encryptUnder tablesStd 0b1010000010#10 0xAA#8 = 0x8D#8 :=
    encryptUnder_of_trace ks_worked_example (0x3#4, 0x3#4) (0x3#4, 0x6#4) (0x5#4, 0x6#4) (by decide)
  have encB6 : encryptUnder tablesStd 0b1010000010#10 0xB6#8 = 0x00#8 :=
    encryptUnder_of_trace ks_worked_example (0x7#4, 0x9#4) (0x9#4, 0x0#4) (0x0#4, 0x0#4) (by decide)
  have enc6A : encryptUnder tablesStd 0b1010000010#10 0x6A#8 = 0xFF#8 :=
    encryptUnder_of_trace ks_worked_example (0xA#4, 0x3#4) (0x3#4, 0xF#4) (0xF#4, 0xF#4) (by decide)
  have enc59 : encryptUnder tablesStd 0b1010000010#10 0x59#8 = 0xAA#8 :=
    encryptUnder_of_trace ks_worked_example (0x8#4, 0xE#4) (0xE#4, 0x3#4) (0x3#4, 0x3#4) (by decide)
  exact ⟨encAA, encryptUnder_first_key,
    encryptUnder_of_trace ks_worked_example (0xA#4, 0x9#4) (0x9#4, 0xD#4) (0xE#4, 0xD#4) (by decide),
    encryptUnder_of_trace ks_worked_example (0x0#4, 0x0#4) (0x0#4, 0x3#4) (0xD#4, 0x3#4) (by decide),
    encryptUnder_of_trace ks_worked_example (0xF#4, 0xF#4) (0xF#4, 0x3#4) (0x2#4, 0x3#4) (by decide),
    encryptUnder_of_trace ks_zeros (0x0#4, 0x0#4) (0x0#4, 0x8#4) (0xB#4, 0x8#4) (by decide),
    encryptUnder_of_trace ks_zeros (0xF#4, 0xF#4) (0xF#4, 0x8#4) (0x4#4, 0x8#4) (by decide),
    encryptUnder_of_trace ks_ones (0x0#4, 0x0#4) (0x0#4, 0x7#4) (0xB#4, 0x7#4) (by decide),
    encryptUnder_of_trace ks_ones (0xF#4, 0xF#4) (0xF#4, 0x7#4) (0x4#4, 0x7#4) (by decide),
    encryptUnder_of_trace ks_key_0111111101 (0x7#4, 0x4#4) (0x4#4, 0x1#4) (0x4#4, 0x1#4) (by decide),
    encryptUnder_of_trace ks_second_example (0x2#4, 0x2#4) (0x2#4, 0x3#4) (0x1#4, 0x3#4) (by decide),
    encryptUnder_of_trace ks_key_0010010111 (0x6#4, 0x9#4) (0x9#4, 0xB#4) (0x8#4, 0xB#4) (by decide),
    decryptUnder_of_encryptUnder encAA, decryptUnder_of_encryptUnder encB6, decryptUnder_of_encryptUnder enc6A,
    decryptUnder_of_encryptUnder enc59⟩

end Sys2Proof
end
